-- ==== Sys2Proof/Word.lean ====
section
/-! DEFINITION. The fixed widths of the block (00_scope.md R8): the 32-bit port word, the 256-bit register as the
port shows it, the 254-bit canonical field element, and the byte lanes of a word. -/

namespace Sys2Proof

/-- One byte lane of the port (20_memory.md R43). -/
abbrev Byte := BitVec 8

/-- The register port's data word, `W` = 32 bits (00_scope.md R8). -/
abbrev Word := BitVec 32

/-- A 256-bit register, `EW` = 256 bits, seen on the port as eight words (00_scope.md R8). -/
abbrev Reg256 := BitVec 256

/-- A stored canonical field element, `FW` = 254 bits (00_scope.md R8, 10_state.md R23). -/
abbrev FieldReg := BitVec 254

end Sys2Proof
end

