-- ==== Sys2Proof/Syntax.lean ====
section
/-! DEFINITION. The commands of the block and the one word format they have (30_encoding.md R60 to R64): `Instr`, one
constructor per row of spec/opcode_table.json; `CW`, the fields of a command word; `Illegal`, why a word is no command. -/

namespace Sys2Proof

/-- The six commands (30_encoding.md R62). No command has an operand field: every operand is a whole register (R61). -/
inductive Instr where
  /-- Clears ERR (41_permutation.md R124). -/
  | nop
  /-- Loads the state from IN0 and IN1 (41_permutation.md R120). -/
  | init
  /-- Applies one round (41_permutation.md R121). -/
  | round
  /-- Applies every remaining round (41_permutation.md R122). -/
  | permute
  /-- The whole hash (41_permutation.md R123). -/
  | hash
  /-- Modular exponentiation of IN0 by IN1 (40_field_arithmetic.md R90). -/
  | modpow
deriving DecidableEq, Repr

/-- The fields of a command word, format CW (30_encoding.md R60): OP in bits 3:0, RSV in bits 31:4. -/
structure CW where
  op : BitVec 4
  rsv : BitVec 28
deriving DecidableEq, Repr

/-- Why a word decodes to ILLEGAL (30_encoding.md R63, R64). -/
inductive Illegal where
  /-- RSV is not 0, whatever OP is. -/
  | reservedBits
  /-- RSV is 0 and OP is one of the reserved opcodes 0x6 to 0xF. -/
  | reservedOpcode
deriving DecidableEq, Repr

end Sys2Proof
end

