-- ==== Sys2Proof/WellFormed.lean ====
section
/-! DEFINITION. Which command words are well formed (30_encoding.md R60, R64). An `Instr` has no fields, so every
`Instr` is well formed; what can be ill formed is a command word's fields. -/

namespace Sys2Proof

/-- RSV must be 0 (30_encoding.md R60). -/
def CW.reservedBitsClear (c : CW) : Bool := c.rsv == 0

/-- OP is one of the six opcodes of 30_encoding.md R62. -/
def CW.opcodeAssigned (c : CW) : Bool := c.op.toNat ≤ 5

/-- A command word's fields are those of a command: both checks hold (30_encoding.md R63). -/
def CW.wellFormed (c : CW) : Bool := c.reservedBitsClear && c.opcodeAssigned

/-- A command has no operand fields (30_encoding.md R60, R61), so there is nothing that could be ill formed in one. -/
def Instr.wellFormed : Instr → Bool
  | .nop => true
  | .init => true
  | .round => true
  | .permute => true
  | .hash => true
  | .modpow => true

end Sys2Proof
end

