-- ==== Sys2Proof/Decode.lean ====
section
/-! DEFINITION. The command decoder of 30_encoding.md R63, total on all 32-bit words and rejecting by name, and after it
the encoder, written from the opcode map of R62. -/

namespace Sys2Proof

/-- The fields of a word (30_encoding.md R60). -/
def CW.ofWord (w : Word) : CW := ⟨w.extractLsb' 0 4, w.extractLsb' 4 28⟩

/-- The word with these fields (30_encoding.md R60). -/
def CW.word (c : CW) : Word := c.rsv ++ c.op

/-- The command of an opcode, `none` for the reserved ones (30_encoding.md R62). -/
def ofOpcode (op : BitVec 4) : Option Instr :=
  match op.toNat with
  | 0x0 => some .nop
  | 0x1 => some .init
  | 0x2 => some .round
  | 0x3 => some .permute
  | 0x4 => some .hash
  | 0x5 => some .modpow
  | _ => none

/-- The decoder of 30_encoding.md R63: RSV is looked at first, then OP. -/
def decode (w : Word) : Except Illegal Instr :=
  if (CW.ofWord w).rsv ≠ 0 then .error .reservedBits
  else
    match ofOpcode (CW.ofWord w).op with
    | some i => .ok i
    | none => .error .reservedOpcode

/-- The word whose byte at address `+j` is the `j`-th argument: little-endian lanes (20_memory.md R43). -/
def wordOfLanes (b0 b1 b2 b3 : Byte) : Word := b3 ++ b2 ++ b1 ++ b0

/-- The decoder on a command's four bytes, the one at the lowest address first. -/
def decodeLanes (b0 b1 b2 b3 : Byte) : Except Illegal Instr := decode (wordOfLanes b0 b1 b2 b3)

/-- The opcode of a command (30_encoding.md R62). -/
def Instr.opcode : Instr → BitVec 4
  | .nop => 0x0
  | .init => 0x1
  | .round => 0x2
  | .permute => 0x3
  | .hash => 0x4
  | .modpow => 0x5

/-- The fields of a command's word: its opcode, RSV 0 (30_encoding.md R60, R62). -/
def Instr.fields (i : Instr) : CW := ⟨i.opcode, 0⟩

/-- The word of a command (30_encoding.md R62). -/
def encode (i : Instr) : Word := i.fields.word

/-- The command the decoder reads from an instruction whose bits are `w` (bit 0 the least significant bit of the one
command word). A command is one 32-bit word and no more (30_encoding.md R60, R65): a longer one is no command. -/
def decodeTableWord (nbits w : Nat) : Option Instr :=
  if w % 2 ^ nbits < 2 ^ 32 then (decode (BitVec.ofNat 32 (w % 2 ^ nbits))).toOption else none

end Sys2Proof
end

