-- ==== Sys2Proof/Machine/Constants.lean ====
section
/-! DEFINITION. The fixed parameters of the construction, each one named constant (00_scope.md R6): the modulus, the
state width, the number of rounds, where the partial rounds begin and end, the S-box exponent, the round constants, the
mixing matrix and the preimage arity. The spec says they are not audited against the repository's code
(91_not_in_source.md N7), so they stand where a repair may change them. -/

namespace Sys2Proof.Machine

/-- A state triple of field elements (s0, s1, s2) as integers (00_scope.md R15, 40_field_arithmetic.md R80). -/
structure Triple where
  s0 : Nat
  s1 : Nat
  s2 : Nat
deriving DecidableEq, Repr

/-- The two-variant tag of a round (41_permutation.md R101, 10_state.md R31). -/
inductive RoundType where
  /-- The S-box is applied to every element. -/
  | full
  /-- The S-box is applied to the first element only. -/
  | part
deriving DecidableEq, Repr

/-- The field modulus `P` (00_scope.md R6). -/
def P : Nat := 21888242871839275222246405745257275088548364400416034343698204186575808495617

/-- The state width `T` in field elements, those of a `Triple` (00_scope.md R6). -/
abbrev T : Nat := 3

/-- The number of rounds `NR` (00_scope.md R6). RCNT counts to it, and at it no round is left (10_state.md R29). -/
abbrev NR : Nat := 8

/-- The first partial round (00_scope.md R6). -/
def PARTIAL_FIRST : Nat := 2

/-- The first full round after the partial ones (00_scope.md R6). -/
def PARTIAL_END : Nat := 6

/-- The S-box exponent `ALPHA` (00_scope.md R6). -/
def ALPHA : Nat := 5

/-- The mixing matrix, a row for each element of the state (00_scope.md R6, 41_permutation.md R106). -/
def MIX : Vector Triple T := #v[⟨2, 1, 1⟩, ⟨1, 2, 1⟩, ⟨1, 1, 2⟩]

/-- The preimage arity: how many elements the driver takes (00_scope.md R6, 45_host_contract.md R141). -/
def ARITY : Nat := 2

/-- The partial rounds stand between the full ones (41_permutation.md R101). -/
def rtype (r : Nat) : RoundType :=
  if r < PARTIAL_FIRST ∨ PARTIAL_END ≤ r then .full else .part

/-- The round constants (41_permutation.md R102). -/
def rc (r : Nat) : Triple :=
  match rtype r with
  | .full => ⟨r + 1, r + 2, r + 3⟩
  | .part => ⟨r + 10, r + 20, r + 30⟩

end Sys2Proof.Machine
end

