-- ==== Sys2Proof/Config.lean ====
section
/-! DEFINITION. What the spec leaves open: the parameters the model takes as arguments (00_scope.md R9), as plain
data that State carries and no step changes, and the free values of the reads the spec calls unspecified
(70_reset_and_hazards.md R181), as constants with no body.
The fixed numbers of the construction (the modulus, the round constants) stand in Machine/Constants.lean. -/

namespace Sys2Proof

/-- The OPEN latencies of 00_scope.md R9 and 70_reset_and_hazards.md R177, in clock cycles LESS ONE, so that every
latency is finite and at least 1 by construction; `Machine.latNop` and its fellows give the latency itself.
`LAT_PERMUTE(k)` is a function of the starting round count 0..7 and `LAT_MODPOW(e)` of the exponent: `modpowAt` lists
the exponents that have a latency of their own, `modpow` is that of every other exponent. -/
structure Latencies where
  nop : Nat
  init : Nat
  round : Nat
  permute : Vector Nat Machine.NR
  hash : Nat
  modpow : Nat
  modpowAt : List (Nat × Nat)
deriving DecidableEq, Repr

/-- The parameters of one installed block (00_scope.md R9): where its window lies, as a count of 0x100-byte windows
(`BASE` must be a multiple of 0x100), and its latencies. -/
structure Params where
  window : Nat
  lat : Latencies
deriving DecidableEq, Repr

/-- The value of the `n`-th unspecified 32-bit read (70_reset_and_hazards.md R181, 93_implementation_defined.md I6):
any value, each read an independent draw, so a function of the draw counter about which nothing is known. -/
opaque Config.freeWord : Nat → Word

/-- The value of the `n`-th unspecified read of STATUS.RCNT (70_reset_and_hazards.md R181): any value in 0..8. -/
opaque Config.freeRcnt : Nat → Fin (Machine.NR + 1)

end Sys2Proof
end

