-- ==== Sys2Proof/Machine/State.lean ====
section
/-! DEFINITION. The state of the block as plain data: the registers of 10_state.md R21 to R29, the hidden state of R30,
the inputs and the answer of the port (20_memory.md R40), the parameters of 00_scope.md R9, the state after reset (R33),
and the reasons a step can stop. The block has no program counter, no register file and no memory (R20, R21, R12). -/

namespace Sys2Proof.Machine

/-- The outcome codes of STATUS.ERR (10_state.md R28). -/
inductive ErrCode where
  /-- 0: a command was accepted. -/
  | ok
  /-- 1: a CMD write of an illegal word was rejected. -/
  | illegal
  /-- 2: a write to IN0, IN1 or CMD was attempted while BUSY = 1. -/
  | busy
  /-- 3: ROUND or PERMUTE was written while RCNT = 8. -/
  | seq
deriving DecidableEq, Repr

/-- How far the engine is within one round (10_state.md R30, 41_permutation.md R108). -/
inductive Stage where
  /-- Before the round. -/
  | before
  /-- After constant addition. -/
  | constantsAdded
  /-- After the S-box layer. -/
  | substituted
deriving DecidableEq, Repr

/-- The engine's hidden progress through a permutation command (10_state.md R30): the round it is in, how far within
it, and the triple it holds there. -/
structure RoundWork where
  r : Nat
  stage : Stage
  v : Triple
deriving DecidableEq, Repr

/-- The square-and-multiply registers `result`, `b` and `e` (10_state.md R30, 40_field_arithmetic.md R84). -/
structure PowWork where
  result : Nat
  b : Nat
  e : Nat
deriving DecidableEq, Repr

/-- The opcode and operand values an in-flight command recorded at acceptance (10_state.md R29), with the engine's
progress through it (R30). -/
inductive Op where
  | nop
  | init (x y : Reg256)
  | round (v : Triple) (k : Fin NR) (w : RoundWork)
  | permute (v : Triple) (k : Fin NR) (w : RoundWork)
  | hash (x y : Reg256) (w : RoundWork)
  | modpow (b e : Reg256) (w : PowWork)
deriving DecidableEq, Repr

/-- The in-flight command record (10_state.md R29, R30): the command, and how many clock cycles are left to its
completion. -/
structure InFlight where
  op : Op
  remaining : Nat
deriving DecidableEq, Repr

/-- The six 256-bit registers of the window (20_memory.md R41). -/
inductive Bank where
  | in0
  | in1
  | s0
  | s1
  | s2
  | res
deriving DecidableEq, Repr

/-- What an aligned offset of the window names (20_memory.md R41). -/
inductive Target where
  | word (bank : Bank) (k : Fin 8)
  | cmd
  | status
deriving DecidableEq, Repr

/-- What the bus checks (a) to (c) make of a transaction (60_exceptions.md R155, 20_memory.md R41). -/
inductive Selected where
  /-- The address does not belong to the block. -/
  | outside
  /-- The port answers ERROR. -/
  | busError
  | target (t : Target)
deriving DecidableEq, Repr

/-- A transaction of the host on the port (20_memory.md R40): a byte address, an access width in bytes, and for a write
the data word. -/
inductive Transaction where
  | read (addr size : Nat)
  | write (addr size : Nat) (data : Word)
deriving DecidableEq, Repr

/-- The response of the port (20_memory.md R40). -/
inductive Resp where
  | okay
  | error
deriving DecidableEq, Repr

/-- What the port answers to a transaction: data and response for a read, a response for a write (20_memory.md R40). -/
inductive Answer where
  | read (data : Word) (resp : Resp)
  | write (resp : Resp)
deriving DecidableEq, Repr

/-- What the outside does in one clock cycle (20_memory.md R40): the level of the active-low reset input, and the
transaction of the host, if there is one. -/
structure Cycle where
  rstN : Bool
  txn : Option Transaction
deriving DecidableEq, Repr

/-- The state of the block. The first ten fields are the spec's registers and the in-flight record; `settling` is what
70_reset_and_hazards.md R171 makes a transaction depend on; the rest are the model's own: the inputs still to come, the
answer of the port in the last cycle, the counter of unspecified reads, and the parameters of 00_scope.md R9. -/
structure State where
  /-- IN0 (10_state.md R22). -/
  in0 : Reg256
  /-- IN1 (10_state.md R22). -/
  in1 : Reg256
  /-- S0 (10_state.md R23). -/
  s0 : FieldReg
  /-- S1 (10_state.md R23). -/
  s1 : FieldReg
  /-- S2 (10_state.md R23). -/
  s2 : FieldReg
  /-- RES (10_state.md R24). -/
  res : FieldReg
  /-- STATUS.BUSY (10_state.md R27). -/
  busy : Bool
  /-- STATUS.ERR (10_state.md R28). -/
  err : ErrCode
  /-- STATUS.RCNT, 0 to 8 (10_state.md R29). -/
  rcnt : Fin (NR + 1)
  /-- The in-flight command record (10_state.md R29, R30). -/
  inflight : Option InFlight
  /-- The last cycle was a reset cycle, so a transaction now is refused (70_reset_and_hazards.md R171). -/
  settling : Bool
  /-- The cycles the outside still drives, in order; once it is empty, cycles with `rst_n` = 1 and no transaction. -/
  port : List Cycle
  /-- What the port answered in the last cycle, `none` where there was no transaction. -/
  answer : Option Answer
  /-- How many unspecified reads there have been: the free values of Config are applied to it. -/
  draws : Nat
  /-- The parameters of 00_scope.md R9. No step changes them. -/
  params : Params
deriving DecidableEq, Repr

/-- Why the machine stops with a fault. -/
inductive Fault where
  /-- Raised by the port when a transaction's address lies outside [BASE, BASE + 0x100): such an address does not
  belong to the block (20_memory.md R41), so the spec gives it no effect here. Safe: the model stops where the system
  goes on elsewhere. -/
  | addressOutsideWindow
deriving DecidableEq, Repr

/-- Why the model gives a step no meaning. -/
inductive Refusal where
  /-- Raised by exec's arm of a command that has no meaning yet; no arm does. Safe. -/
  | notModelled (mnemonic : String)
  /-- Raised by the port on a transaction while `rst_n` = 0: 70_reset_and_hazards.md R171 calls the response
  unspecified and has a model refuse it. Safe: the model stops. -/
  | transactionDuringReset
  /-- Raised by the port on a transaction in the first clock cycle after `rst_n` rises: 70_reset_and_hazards.md R171
  calls the response unspecified and has a model refuse it. Safe: the model stops. -/
  | transactionInFirstCycle
deriving DecidableEq, Repr

/-- The parameters of the model's reset state (log entry 2, DESIGN CHOICE): the spec leaves every one OPEN. -/
def State.resetParams : Params :=
  ⟨0, ⟨0, 0, 0, Vector.replicate NR 0, 0, 0, []⟩⟩

/-- The machine right after reset (10_state.md R33, 70_reset_and_hazards.md R170): `rst_n` has just risen, so the
first cycle of R171 is still to come; no input is listed and nothing has been answered. -/
def State.reset : State where
  in0 := 0
  in1 := 0
  s0 := 0
  s1 := 0
  s2 := 0
  res := 0
  busy := false
  err := .ok
  rcnt := Fin.last NR
  inflight := none
  settling := true
  port := []
  answer := none
  draws := 0
  params := State.resetParams

end Sys2Proof.Machine
end

