-- ==== Sys2Proof/Machine/Flags.lean ====
section
/-! DEFINITION. The STATUS word (10_state.md R26), the error codes (R28), and which registers an in-flight command
leaves unspecified to a reader (70_reset_and_hazards.md R181). -/

namespace Sys2Proof.Machine

/-- The code of an outcome in the 4-bit field ERR (10_state.md R28). -/
def ErrCode.code : ErrCode → BitVec 4
  | .ok => 0
  | .illegal => 1
  | .busy => 2
  | .seq => 3

/-- The STATUS word with this round count in RCNT: 20 zero bits, RCNT, ERR, three zero bits, BUSY (10_state.md R26,
20_memory.md R44). -/
def statusWordWith (rcnt : Fin (NR + 1)) (s : State) : Word :=
  (0 : BitVec 20) ++ BitVec.ofNat 4 rcnt.val ++ s.err.code ++ (0 : BitVec 3) ++ BitVec.ofBool s.busy

/-- The STATUS word of a state whose RCNT is not being written (20_memory.md R44). -/
def statusWord (s : State) : Word := statusWordWith s.rcnt s

/-- The command writes S0, S1, S2 and RCNT at completion (30_encoding.md R61, 70_reset_and_hazards.md R181). -/
def Op.writesState : Op → Bool
  | .nop => false
  | .init _ _ => true
  | .round _ _ _ => true
  | .permute _ _ _ => true
  | .hash _ _ _ => true
  | .modpow _ _ _ => false

/-- The command writes RES at completion (30_encoding.md R61, 70_reset_and_hazards.md R181). -/
def Op.writesRes : Op → Bool
  | .nop => false
  | .init _ _ => false
  | .round _ _ _ => false
  | .permute _ _ _ => false
  | .hash _ _ _ => false
  | .modpow _ _ _ => true

/-- BUSY = 1 and the in-flight command writes S0, S1, S2 and RCNT (70_reset_and_hazards.md R181). -/
def State.stateUnsettled (s : State) : Bool := s.busy && s.inflight.any (·.op.writesState)

/-- BUSY = 1 and the in-flight command writes RES (70_reset_and_hazards.md R181). -/
def State.resUnsettled (s : State) : Bool := s.busy && s.inflight.any (·.op.writesRes)

/-- A read of this register is unspecified now (70_reset_and_hazards.md R181). -/
def State.bankUnsettled (s : State) : Bank → Bool
  | .in0 => false
  | .in1 => false
  | .s0 => s.stateUnsettled
  | .s1 => s.stateUnsettled
  | .s2 => s.stateUnsettled
  | .res => s.resUnsettled

end Sys2Proof.Machine
end

