-- ==== Sys2Proof/Machine/Field.lean ====
section
/-! DEFINITION. The field arithmetic unit (40_field_arithmetic.md R80 to R87): every sum and product is formed exactly
in the natural numbers and reduced once. -/

namespace Sys2Proof.Machine

/-- Reduction (40_field_arithmetic.md R81). -/
def fred (x : Nat) : Nat := x % P

/-- Modular addition (40_field_arithmetic.md R82). -/
def fadd (a b : Nat) : Nat := (a + b) % P

/-- A sum of three terms, reduced once (40_field_arithmetic.md R82). -/
def fsum (a b c : Nat) : Nat := (a + b + c) % P

/-- Modular multiplication (40_field_arithmetic.md R83). -/
def fmul (a b : Nat) : Nat := (a * b) % P

/-- One turn of the square-and-multiply loop (40_field_arithmetic.md R84). -/
def PowWork.turn (w : PowWork) : PowWork :=
  ⟨if w.e % 2 = 1 then fmul w.result w.b else w.result, fmul w.b w.b, w.e >>> 1⟩

/-- The loop of 40_field_arithmetic.md R84, run while `e > 0`, at most `n` turns. -/
def PowWork.loop : Nat → PowWork → Nat
  | 0, w => w.result
  | n + 1, w => if w.e = 0 then w.result else PowWork.loop n w.turn

/-- The result of the loop from these registers: an exponent of `n` bits takes `n` turns (40_field_arithmetic.md R85). -/
def PowWork.finish (w : PowWork) : Nat := PowWork.loop (w.e.log2 + 1) w

/-- The registers the loop starts from: `b` is reduced and `result` is 1 (40_field_arithmetic.md R84). -/
def PowWork.start (b e : Nat) : PowWork := ⟨1, fred b, e⟩

/-- Modular exponentiation, exponent consumed from the least significant bit up (40_field_arithmetic.md R84). -/
def modpow (b e : Nat) : Nat := (PowWork.start b e).finish

/-- The S-box (40_field_arithmetic.md R87). -/
def sbox (x : Nat) : Nat := modpow x ALPHA

end Sys2Proof.Machine
end

