-- ==== Sys2Proof/Machine/Permutation.lean ====
section
/-! DEFINITION. The permutation engine's functions (41_permutation.md R100 to R110) and the engine's passage through
the stages of a round (10_state.md R30). -/

namespace Sys2Proof.Machine

/-- The initial state of two inputs (41_permutation.md R100). -/
def initTriple (x y : Nat) : Triple := ⟨fred x, fred y, 0⟩

/-- Constant addition, on all three elements in every round (41_permutation.md R103). -/
def arc (v : Triple) (r : Nat) : Triple :=
  ⟨fadd v.s0 (rc r).s0, fadd v.s1 (rc r).s1, fadd v.s2 (rc r).s2⟩

/-- The S-box layer (41_permutation.md R104, R105). -/
def sboxLayer (v : Triple) (r : Nat) : Triple :=
  match rtype r with
  | .full => ⟨sbox v.s0, sbox v.s1, sbox v.s2⟩
  | .part => ⟨sbox v.s0, v.s1, v.s2⟩

/-- A row of the mixing matrix applied to the state, summed exactly and reduced once (41_permutation.md R106). -/
def mixRow (m v : Triple) : Nat := fsum (m.s0 * v.s0) (m.s1 * v.s1) (m.s2 * v.s2)

/-- The linear mixing layer, all three outputs from the same inputs (41_permutation.md R106). -/
def mix (v : Triple) : Triple := ⟨mixRow MIX[0] v, mixRow MIX[1] v, mixRow MIX[2] v⟩

/-- One round: constants, S-box, mixing, in that order (41_permutation.md R108). -/
def roundFn (v : Triple) (r : Nat) : Triple := mix (sboxLayer (arc v r) r)

/-- `n` rounds in order, the first at index `r`. -/
def rounds : Nat → Nat → Triple → Triple
  | 0, _, v => v
  | n + 1, r, v => rounds n (r + 1) (roundFn v r)

/-- The rounds from index `k` to the last (41_permutation.md R109). -/
def permFrom (v : Triple) (k : Nat) : Triple := rounds (NR - k) k v

/-- The whole permutation (41_permutation.md R109). -/
def perm (v : Triple) : Triple := permFrom v 0

/-- The hash function (41_permutation.md R110). -/
def H (x y : Nat) : Nat := (perm (initTriple x y)).s0

/-- The engine before round `r` of `v`. -/
def RoundWork.start (v : Triple) (r : Nat) : RoundWork := ⟨r, .before, v⟩

/-- The engine goes one stage further, or stays where it is when round `stop` is reached (10_state.md R30). -/
def RoundWork.advance (stop : Nat) (w : RoundWork) : RoundWork :=
  if w.r < stop then
    match w.stage with
    | .before => ⟨w.r, .constantsAdded, arc w.v w.r⟩
    | .constantsAdded => ⟨w.r, .substituted, sboxLayer w.v w.r⟩
    | .substituted => ⟨w.r + 1, .before, mix w.v⟩
  else w

/-- The triple the engine ends with: what is left of the present round, then the rounds below `stop`. -/
def RoundWork.finish (stop : Nat) (w : RoundWork) : Triple :=
  if w.r < stop then
    match w.stage with
    | .before => rounds (stop - w.r) w.r w.v
    | .constantsAdded => rounds (stop - (w.r + 1)) (w.r + 1) (mix (sboxLayer w.v w.r))
    | .substituted => rounds (stop - (w.r + 1)) (w.r + 1) (mix w.v)
  else w.v

end Sys2Proof.Machine
end

