-- ==== Sys2Proof/Machine/Operands.lean ====
section
/-! DEFINITION. Operand assembly: the words of a 256-bit register (20_memory.md R42), the registers as the window shows
them (20_memory.md R41), and what each command captures at acceptance (30_encoding.md R61, 10_state.md R29). -/

namespace Sys2Proof.Machine

/-- Word `k` of a 256-bit register: its bits 32k+31 to 32k (20_memory.md R42). -/
def regWord (v : Reg256) (k : Fin 8) : Word := v.extractLsb' (32 * k.val) 32

/-- The register with word `k` replaced (20_memory.md R42, R45). -/
def setRegWord (v : Reg256) (k : Fin 8) (w : Word) : Reg256 :=
  (v &&& ~~~((BitVec.allOnes 32).setWidth 256 <<< (32 * k.val))) ||| (w.setWidth 256 <<< (32 * k.val))

/-- Byte lane `j` of a word: bits 8j+7 to 8j, at byte address `+j` (20_memory.md R43). -/
def lane (w : Word) (j : Fin 4) : Byte := w.extractLsb' (8 * j.val) 8

/-- Byte `i` of a 256-bit register seen as 32 bytes at rising addresses (20_memory.md R43). -/
def regByte (v : Reg256) (i : Fin 32) : Byte := v.extractLsb' (8 * i.val) 8

/-- The words of a 256-bit register, the one at the lowest address first (20_memory.md R42, 30_encoding.md R67). -/
def wordOrder : List (Fin 8) := [0, 1, 2, 3, 4, 5, 6, 7]

/-- The value a host assembles from the eight words of a register: the sum of word_k · 2^(32k) (20_memory.md R42). -/
def assemble (w : Fin 8 → Word) : Nat := (wordOrder.map fun k => (w k).toNat * 2 ^ (32 * k.val)).sum

/-- The state registers as a triple (10_state.md R23). -/
def State.triple (s : State) : Triple := ⟨s.s0.toNat, s.s1.toNat, s.s2.toNat⟩

/-- The state registers written together (41_permutation.md R106, 70_reset_and_hazards.md R176). -/
def State.setTriple (s : State) (v : Triple) : State :=
  { s with s0 := BitVec.ofNat 254 v.s0, s1 := BitVec.ofNat 254 v.s1, s2 := BitVec.ofNat 254 v.s2 }

/-- A 256-bit register as the window shows it; a field element is zero-extended (10_state.md R23, R24). -/
def State.bank (s : State) : Bank → Reg256
  | .in0 => s.in0
  | .in1 => s.in1
  | .s0 => s.s0.setWidth 256
  | .s1 => s.s1.setWidth 256
  | .s2 => s.s2.setWidth 256
  | .res => s.res.setWidth 256

/-- INIT captures IN0 and IN1 (41_permutation.md R120). -/
def captureInit (s : State) : Op := .init s.in0 s.in1

/-- ROUND captures the state and the round count (41_permutation.md R121, 10_state.md R29). -/
def captureRound (k : Fin NR) (s : State) : Op := .round s.triple k (RoundWork.start s.triple k.val)

/-- PERMUTE captures the state and the round count (41_permutation.md R122, 10_state.md R29). -/
def capturePermute (k : Fin NR) (s : State) : Op := .permute s.triple k (RoundWork.start s.triple k.val)

/-- HASH captures IN0 and IN1 (41_permutation.md R123). -/
def captureHash (s : State) : Op :=
  .hash s.in0 s.in1 (RoundWork.start (initTriple s.in0.toNat s.in1.toNat) 0)

/-- MODPOW captures IN0 as the base and IN1 as the exponent (40_field_arithmetic.md R90). -/
def captureModpow (s : State) : Op := .modpow s.in0 s.in1 (PowWork.start s.in0.toNat s.in1.toNat)

end Sys2Proof.Machine
end

