-- ==== Sys2Proof/Machine/Ops.lean ====
section
/-! DEFINITION. The shared operations of the block: its parameters, the address map (20_memory.md R41), accepting and
rejecting a command (60_exceptions.md R151), completing one (70_reset_and_hazards.md R176), answering on the port, and
reset (R170). The block has no exceptions (60_exceptions.md R150, R157): `reject` is all that an error does. -/

namespace Sys2Proof.Machine

/-- `BASE`, a multiple of 0x100 (00_scope.md R9). -/
def State.base (s : State) : Nat := 0x100 * s.params.window

/-- `LAT_NOP` (00_scope.md R9). -/
def latNop (p : Params) : Nat := p.lat.nop + 1

/-- `LAT_INIT` (00_scope.md R9). -/
def latInit (p : Params) : Nat := p.lat.init + 1

/-- `LAT_ROUND` (00_scope.md R9). -/
def latRound (p : Params) : Nat := p.lat.round + 1

/-- `LAT_PERMUTE(k)`, a function of the starting round count (70_reset_and_hazards.md R177). -/
def latPermute (p : Params) (k : Fin NR) : Nat := p.lat.permute[k.val] + 1

/-- `LAT_HASH` (00_scope.md R9). -/
def latHash (p : Params) : Nat := p.lat.hash + 1

/-- `LAT_MODPOW(e)`, which may depend on the exponent (70_reset_and_hazards.md R177). -/
def latModpow (p : Params) (e : Reg256) : Nat := (p.lat.modpowAt.lookup e.toNat).getD p.lat.modpow + 1

/-- What an aligned offset of the window names, `none` for the unmapped ones from 0xC8 on (20_memory.md R41). -/
def targetOf (off : Nat) : Option Target :=
  if off < 0x20 then some (.word .in0 (Fin.ofNat 8 (off / 4)))
  else if off < 0x40 then some (.word .in1 (Fin.ofNat 8 (off / 4)))
  else if off < 0x60 then some (.word .s0 (Fin.ofNat 8 (off / 4)))
  else if off < 0x80 then some (.word .s1 (Fin.ofNat 8 (off / 4)))
  else if off < 0xA0 then some (.word .s2 (Fin.ofNat 8 (off / 4)))
  else if off < 0xC0 then some (.word .res (Fin.ofNat 8 (off / 4)))
  else if off < 0xC4 then some .cmd
  else if off < 0xC8 then some .status
  else none

/-- The first bus checks, in their order of priority (60_exceptions.md R155, 20_memory.md R44 to R47): size and
alignment, then an unmapped offset. -/
def busSelect (base addr size : Nat) : Selected :=
  if addr < base ∨ base + 0x100 ≤ addr then .outside
  else if size ≠ 4 ∨ (addr - base) % 4 ≠ 0 then .busError
  else
    match targetOf (addr - base) with
    | some t => .target t
    | none => .busError

/-- The port answers a read (20_memory.md R44). -/
def answerRead (data : Word) (resp : Resp) (s : State) : State := { s with answer := some (.read data resp) }

/-- The port answers a write (20_memory.md R45). -/
def answerWrite (resp : Resp) (s : State) : State := { s with answer := some (.write resp) }

/-- A bus error on a read: response ERROR, data 0, no state change (60_exceptions.md R153). -/
def busErrorRead (s : State) : State := answerRead 0 .error s

/-- A bus error on a write: response ERROR, no state change (60_exceptions.md R153). -/
def busErrorWrite (s : State) : State := answerWrite .error s

/-- An unspecified 32-bit read: a free value, drawn anew for each read (70_reset_and_hazards.md R181). -/
def answerFreeWord (s : State) : State :=
  { answerRead (Config.freeWord s.draws) .okay s with draws := s.draws + 1 }

/-- A STATUS read whose RCNT field is unspecified: a free value in 0..8 (70_reset_and_hazards.md R181). -/
def answerFreeStatus (s : State) : State :=
  { answerRead (statusWordWith (Config.freeRcnt s.draws) s) .okay s with draws := s.draws + 1 }

/-- A rejected command or write: the code is recorded and nothing else changes (60_exceptions.md R151, R157). -/
def reject (code : ErrCode) (s : State) : State := { s with err := code }

/-- Acceptance: ERR <- 0, BUSY <- 1, and the in-flight record with its latency (60_exceptions.md R151). -/
def accept (lat : Nat) (op : Op) (s : State) : State :=
  { s with err := .ok, busy := true, inflight := some ⟨op, lat⟩ }

/-- A command written while BUSY = 1 is dropped with ERR = BUSY (70_reset_and_hazards.md R179, R180). -/
def whenIdle (s : State) (k : Host.Outcome State Fault Refusal) : Host.Outcome State Fault Refusal :=
  if s.busy then .next (reject .busy s) else k

/-- ROUND and PERMUTE need a round left: RCNT = 8 gives ERR = SEQ (41_permutation.md R121, R122). -/
def withRoundLeft (s : State) (k : Fin NR → State) : Host.Outcome State Fault Refusal :=
  if h : s.rcnt.val < NR then .next (k ⟨s.rcnt.val, h⟩) else .next (reject .seq s)

/-- The end of a completion: BUSY <- 0 and no in-flight record (70_reset_and_hazards.md R176). -/
def retire (s : State) : State := { s with busy := false, inflight := none }

/-- A reset cycle: every piece of the block's state takes its reset value and an in-flight command is abandoned
(70_reset_and_hazards.md R170). The outside's inputs, the draw counter and the parameters are not the block's. -/
def assertReset (s : State) : State :=
  { State.reset with port := s.port, draws := s.draws, params := s.params }

end Sys2Proof.Machine
end

