-- ==== Sys2Proof/Machine/ModpowCommand.lean ====
section
/-! DEFINITION. The command MODPOW (40_field_arithmetic.md R90), at acceptance and at completion. -/

namespace Sys2Proof.Machine

/-- MODPOW at acceptance (40_field_arithmetic.md R90). -/
def execModpow (s : State) : Host.Outcome State Fault Refusal :=
  whenIdle s (.next (accept (latModpow s.params s.in1) (captureModpow s) s))

/-- MODPOW at completion: RES takes the result of the loop (40_field_arithmetic.md R90). -/
def completeModpow (w : PowWork) (s : State) : State :=
  retire { s with res := BitVec.ofNat 254 w.finish }

end Sys2Proof.Machine
end

