-- ==== Sys2Proof/Machine/PermutationCommands.lean ====
section
/-! DEFINITION. The commands NOP, INIT, ROUND, PERMUTE and HASH (41_permutation.md R120 to R124): what a write of the
command's word does (`exec…`, the acceptance of 60_exceptions.md R151) and what the engine does when the command
completes (`complete…`, 70_reset_and_hazards.md R176). -/

namespace Sys2Proof.Machine

/-- NOP at acceptance (41_permutation.md R124). -/
def execNop (s : State) : Host.Outcome State Fault Refusal :=
  whenIdle s (.next (accept (latNop s.params) .nop s))

/-- INIT at acceptance (41_permutation.md R120). -/
def execInit (s : State) : Host.Outcome State Fault Refusal :=
  whenIdle s (.next (accept (latInit s.params) (captureInit s) s))

/-- ROUND at acceptance (41_permutation.md R121). -/
def execRound (s : State) : Host.Outcome State Fault Refusal :=
  whenIdle s (withRoundLeft s fun k => accept (latRound s.params) (captureRound k s) s)

/-- PERMUTE at acceptance (41_permutation.md R122). -/
def execPermute (s : State) : Host.Outcome State Fault Refusal :=
  whenIdle s (withRoundLeft s fun k => accept (latPermute s.params k) (capturePermute k s) s)

/-- HASH at acceptance (41_permutation.md R123). -/
def execHash (s : State) : Host.Outcome State Fault Refusal :=
  whenIdle s (.next (accept (latHash s.params) (captureHash s) s))

/-- NOP at completion: no effect but BUSY <- 0 (41_permutation.md R124). -/
def completeNop (s : State) : State := retire s

/-- INIT at completion (41_permutation.md R120). -/
def completeInit (x y : Reg256) (s : State) : State :=
  retire { s.setTriple (initTriple x.toNat y.toNat) with rcnt := 0 }

/-- ROUND at completion: the round of the captured index is finished and RCNT is one more (41_permutation.md R121). -/
def completeRound (k : Fin NR) (w : RoundWork) (s : State) : State :=
  retire { s.setTriple (w.finish (k.val + 1)) with rcnt := k.succ }

/-- PERMUTE at completion: the rounds to the last are finished and RCNT is 8 (41_permutation.md R122). -/
def completePermute (w : RoundWork) (s : State) : State :=
  retire { s.setTriple (w.finish NR) with rcnt := Fin.last NR }

/-- HASH at completion: the rounds to the last are finished and RCNT is 8 (41_permutation.md R123). -/
def completeHash (w : RoundWork) (s : State) : State :=
  retire { s.setTriple (w.finish NR) with rcnt := Fin.last NR }

end Sys2Proof.Machine
end

