-- ==== Sys2Proof/Machine/Engine.lean ====
section
/-! DEFINITION. The engine agent (00_scope.md R14): its clock cycle while a command is in flight, and the completion
step (70_reset_and_hazards.md R176). -/

namespace Sys2Proof.Machine

/-- The engine's hidden progress in a cycle that does not complete the command (10_state.md R30). -/
def Op.advance : Op → Op
  | .nop => .nop
  | .init x y => .init x y
  | .round v k w => .round v k (w.advance (k.val + 1))
  | .permute v k w => .permute v k (w.advance NR)
  | .hash x y w => .hash x y (w.advance NR)
  | .modpow b e w => .modpow b e (if w.e = 0 then w else w.turn)

/-- All of a command's completion effects in one update (70_reset_and_hazards.md R176). -/
def complete : Op → State → State
  | .nop, s => completeNop s
  | .init x y, s => completeInit x y s
  | .round _ k w, s => completeRound k w s
  | .permute _ _ w, s => completePermute w s
  | .hash _ _ w, s => completeHash w s
  | .modpow _ _ w, s => completeModpow w s

/-- The engine's part of one clock cycle: nothing without an in-flight command; the completion when its latency is
over; else one cycle less remains (70_reset_and_hazards.md R176, R177). -/
def tick (s : State) : State :=
  match s.inflight with
  | none => s
  | some f =>
    if f.remaining ≤ 1 then complete f.op s
    else { s with inflight := some ⟨f.op.advance, f.remaining - 1⟩ }

end Sys2Proof.Machine
end

