-- ==== Sys2Proof/Machine/Port.lean ====
section
/-! DEFINITION. The register port: reads (20_memory.md R44), writes (R45), the submission of a command word
(60_exceptions.md R151), and one clock cycle of the whole block, in which a completion comes before the transaction
(R155). -/

namespace Sys2Proof.Machine

/-- A read of a target (20_memory.md R44): the register's word, 0 for CMD, the STATUS word; a free value where
70_reset_and_hazards.md R181 leaves the read unspecified. -/
def readTarget (t : Target) (s : State) : State :=
  match t with
  | .word b k => if s.bankUnsettled b then answerFreeWord s else answerRead (regWord (s.bank b) k) .okay s
  | .cmd => answerRead 0 .okay s
  | .status => if s.stateUnsettled then answerFreeStatus s else answerRead (statusWord s) .okay s

/-- A word written to CMD is submitted as a command (60_exceptions.md R151): `exec` decides on a legal word, BUSY
included; an illegal word is rejected, BUSY winning over ILLEGAL (R155). -/
def submit (w : Word) (s : State) : Host.Outcome State Fault Refusal :=
  match decode w with
  | .ok i => exec i s
  | .error _ => .next (reject (if s.busy then .busy else .illegal) s)

/-- A write to an IN word: ignored with ERR = BUSY while BUSY = 1 (20_memory.md R45, 70_reset_and_hazards.md R180). -/
def writeIn (written s : State) : Host.Outcome State Fault Refusal :=
  .next (if s.busy then reject .busy s else written)

/-- A write to a target (20_memory.md R45): an IN word, a command, or a bus error for a read-only register (R46). -/
def writeTarget (t : Target) (data : Word) (s : State) : Host.Outcome State Fault Refusal :=
  match t with
  | .word .in0 k => writeIn { answerWrite .okay s with in0 := setRegWord s.in0 k data } (answerWrite .okay s)
  | .word .in1 k => writeIn { answerWrite .okay s with in1 := setRegWord s.in1 k data } (answerWrite .okay s)
  | .word .s0 _ => .next (busErrorWrite s)
  | .word .s1 _ => .next (busErrorWrite s)
  | .word .s2 _ => .next (busErrorWrite s)
  | .word .res _ => .next (busErrorWrite s)
  | .cmd => submit data (answerWrite .okay s)
  | .status => .next (busErrorWrite s)

/-- One transaction of the host (20_memory.md R44, R45). -/
def perform (t : Transaction) (s : State) : Host.Outcome State Fault Refusal :=
  match t with
  | .read addr size =>
    match busSelect s.base addr size with
    | .outside => .fault .addressOutsideWindow
    | .busError => .next (busErrorRead s)
    | .target t => .next (readTarget t s)
  | .write addr size data =>
    match busSelect s.base addr size with
    | .outside => .fault .addressOutsideWindow
    | .busError => .next (busErrorWrite s)
    | .target t => writeTarget t data s

/-- One clock cycle. While `rst_n` = 0 the block is in reset and a transaction is refused; in the first cycle after, a
transaction is refused as well (70_reset_and_hazards.md R170, R171). Else the engine has its part first, and then the
transaction is performed (60_exceptions.md R155). -/
def cycle (c : Cycle) (s : State) : Host.Outcome State Fault Refusal :=
  match c.rstN, c.txn with
  | false, none => .next (assertReset s)
  | false, some _ => .refused .transactionDuringReset
  | true, none => .next { tick s with settling := false, answer := none }
  | true, some t => if s.settling then .refused .transactionInFirstCycle else perform t (tick s)

/-- The cycle the outside drives next, and the state without it: with nothing listed, `rst_n` = 1 and no transaction. -/
def nextCycle (s : State) : Cycle × State :=
  match s.port with
  | [] => (⟨true, none⟩, s)
  | c :: rest => (c, { s with port := rest })

/-- The host writes this word to CMD in one cycle (30_encoding.md R66). -/
def commandCycle (w : Word) (s : State) : Cycle := ⟨true, some (.write (s.base + 0xC0) 4 w)⟩

/-- The state whose next cycle is that write: the first cycle after reset is over, and the write comes before the
inputs already listed. -/
def placeCommand (w : Word) (s : State) : State :=
  { s with settling := false, port := commandCycle w s :: s.port }

end Sys2Proof.Machine
end

