-- ==== Sys2Proof/Machine/Step.lean ====
section
/-! DEFINITION. One step of the machine: one clock cycle of the block with what the outside does in it
(20_memory.md R40); and how a command word is placed so that the next step runs it. -/

namespace Sys2Proof.Machine

/-- One clock cycle (20_memory.md R40). -/
def step (s : State) : Host.Outcome State Fault Refusal :=
  cycle (nextCycle s).1 (nextCycle s).2

/-- The block fetches nothing (20_memory.md R55): the host writes the command's word to CMD in the next cycle. -/
def State.withFetchWord (s : State) (nbits w : Nat) : State :=
  placeCommand (BitVec.ofNat 32 (w % 2 ^ nbits)) s

end Sys2Proof.Machine
end

