-- ==== Sys2Proof/Machine/HostForms.lean ====
section
/-! DEFINITION. The host notation as functions that run on the machine (30_encoding.md R66, R67): one transaction a
clock cycle, in the cycles that the other agents of `State.port` leave free, and the port's answer taken from the state
after it. They are the
host's program forms, no part of the block. -/

namespace Sys2Proof.Machine

/-- Why a host form or the driver ends without a result. -/
inductive HostError where
  /-- The machine stopped with a fault or a refusal. -/
  | stopped
  /-- The port answered ERROR (60_exceptions.md R153). -/
  | busError
  /-- The given number of STATUS reads all found BUSY = 1. -/
  | stillBusy
  /-- The preimage does not have two elements (45_host_contract.md R141). -/
  | invalidArity
  /-- An element is no decimal numeral (45_host_contract.md R142). -/
  | invalidNumeral
  /-- STATUS.ERR is not OK after the hash: another agent disturbed the block (45_host_contract.md R146). -/
  | disturbed
deriving DecidableEq, Repr

/-- What a host form ends with: a value and the machine's state, or an error. -/
abbrev HostResult (α : Type) := Except HostError (α × State)

/-- A listed cycle the host can put its transaction in: out of reset, and no other agent uses the port in it. -/
def Cycle.free (c : Cycle) : Bool := c.rstN && c.txn.isNone

/-- The machine runs these cycles up to the first free one and makes the transaction there. Every other cycle goes as
it is listed: the port serialises the bus masters and does not tell them apart (20_memory.md R52, R57). -/
def issueIn (t : Transaction) : List Cycle → State → Host.Outcome State Fault Refusal
  | [], s => step { s with port := [⟨true, some t⟩] }
  | c :: rest, s =>
    if c.free then step { s with port := ⟨true, some t⟩ :: rest }
    else
      match step { s with port := c :: rest } with
      | .next s' => issueIn t rest s'
      | .fault r => .fault r
      | .refused r => .refused r

/-- The host makes this transaction in the first cycle that the other agents leave it (log entry 13). -/
def issue (t : Transaction) (s : State) : Host.Outcome State Fault Refusal := issueIn t s.port s

/-- The byte offset of word 0 of a register (20_memory.md R41, 30_encoding.md R66). -/
def bankOffset : Bank → Nat
  | .in0 => 0x00
  | .in1 => 0x20
  | .s0 => 0x40
  | .s1 => 0x60
  | .s2 => 0x80
  | .res => 0xA0

/-- The offset of CMD (20_memory.md R41). -/
def cmdOffset : Nat := 0xC0

/-- The offset of STATUS (20_memory.md R41). -/
def statusOffset : Nat := 0xC4

/-- `wr OFF, V` (30_encoding.md R66). -/
def hostWrite (off : Nat) (v : Word) (s : State) : Except HostError State :=
  match issue (.write (s.base + off) 4 v) s with
  | .next s' => if s'.answer = some (.write .okay) then .ok s' else .error .busError
  | .fault _ => .error .stopped
  | .refused _ => .error .stopped

/-- `rd OFF -> name` (30_encoding.md R66). -/
def hostRead (off : Nat) (s : State) : HostResult Word :=
  match issue (.read (s.base + off) 4) s with
  | .next s' =>
    match s'.answer with
    | some (.read d .okay) => .ok (d, s')
    | _ => .error .busError
  | .fault _ => .error .stopped
  | .refused _ => .error .stopped

/-- `cmdw W` (30_encoding.md R66). -/
def hostCmdWord (w : Word) (s : State) : Except HostError State := hostWrite cmdOffset w s

/-- `cmd MNEMONIC` (30_encoding.md R66). -/
def hostCmd (i : Instr) (s : State) : Except HostError State := hostCmdWord (encode i) s

/-- The words of `x` written to these words of a register, in this order. -/
def writeWords (off : Nat) (x : Reg256) : List (Fin 8) → State → Except HostError State
  | [], s => .ok s
  | k :: ks, s =>
    match hostWrite (off + 4 * k.val) (regWord x k) s with
    | .ok s' => writeWords off x ks s'
    | .error e => .error e

/-- These words of a register read in this order and summed at their weights. -/
def readWords (off : Nat) : List (Fin 8) → Nat → State → HostResult Nat
  | [], sum, s => .ok (sum, s)
  | k :: ks, sum, s =>
    match hostRead (off + 4 * k.val) s with
    | .ok (w, s') => readWords off ks (sum + w.toNat * 2 ^ (32 * k.val)) s'
    | .error e => .error e

/-- `ld256 REG, X` (30_encoding.md R67). -/
def ld256 (b : Bank) (x : Reg256) (s : State) : Except HostError State := writeWords (bankOffset b) x wordOrder s

/-- `rd256 REG -> v` (30_encoding.md R67). -/
def rd256 (b : Bank) (s : State) : HostResult Nat := readWords (bankOffset b) wordOrder 0 s

/-- `wait` with at most `n` reads of STATUS (30_encoding.md R67). -/
def wait : Nat → State → Except HostError State
  | 0, _ => .error .stillBusy
  | n + 1, s =>
    match hostRead statusOffset s with
    | .ok (st, s') => if st.getLsbD 0 then wait n s' else .ok s'
    | .error e => .error e

/-- `cmd MNEMONIC` and then `wait`. -/
def cmdWait (n : Nat) (i : Instr) (s : State) : Except HostError State :=
  match hostCmd i s with
  | .ok s' => wait n s'
  | .error e => .error e

/-- `ld256 IN0, X ; ld256 IN1, Y ; cmd MNEMONIC ; wait`. -/
def loadRun (n : Nat) (i : Instr) (x y : Reg256) (s : State) : Except HostError State :=
  match ld256 .in0 x s with
  | .ok s1 =>
    match ld256 .in1 y s1 with
    | .ok s2 => cmdWait n i s2
    | .error e => .error e
  | .error e => .error e

/-- `hash X, Y -> d` (30_encoding.md R67). -/
def hostHash (n : Nat) (x y : Reg256) (s : State) : HostResult Nat :=
  match loadRun n .hash x y s with
  | .ok s' => rd256 .s0 s'
  | .error e => .error e

/-- `pow X, E -> v` (30_encoding.md R67). -/
def hostPow (n : Nat) (x e : Reg256) (s : State) : HostResult Nat :=
  match loadRun n .modpow x e s with
  | .ok s' => rd256 .res s'
  | .error e => .error e

/-- `step -> (a, b, c)` (30_encoding.md R67). -/
def hostStep (n : Nat) (s : State) : HostResult Triple :=
  match cmdWait n .round s with
  | .ok s1 =>
    match rd256 .s0 s1 with
    | .ok (a, s2) =>
      match rd256 .s1 s2 with
      | .ok (b, s3) =>
        match rd256 .s2 s3 with
        | .ok (c, s4) => .ok (⟨a, b, c⟩, s4)
        | .error e => .error e
      | .error e => .error e
    | .error e => .error e
  | .error e => .error e

end Sys2Proof.Machine
end

