-- ==== Sys2Proof/Machine/Driver.lean ====
section
/-! DEFINITION. The host driver `hash_str` (45_host_contract.md R140 to R146). It is surrounding software, no part of
the block; strings are lists of characters. -/

namespace Sys2Proof.Machine

/-- The value of a decimal digit character. -/
def digitValue (c : Char) : Nat := c.toNat - 48

/-- A character in '0' to '9'. -/
def isDecimal (c : Char) : Bool := 48 ≤ c.toNat && c.toNat ≤ 57

/-- Numeral normalisation (45_host_contract.md R142): every '.' is removed; what is left must be digits and not empty. -/
def parseNumeral (str : List Char) : Except HostError Nat :=
  let t := str.filter (· != '.')
  if t.isEmpty || !t.all isDecimal then .error .invalidNumeral
  else .ok (t.foldl (fun n c => 10 * n + digitValue c) 0)

/-- The digits of `n` before those in `rest`, at most `fuel` of them. -/
def decimalDigits : Nat → Nat → List Char → List Char
  | 0, _, rest => rest
  | fuel + 1, n, rest =>
    if n < 10 then Char.ofNat (48 + n) :: rest
    else decimalDigits fuel (n / 10) (Char.ofNat (48 + n % 10) :: rest)

/-- The decimal numeral of a number: no sign, no leading zeros, "0" for zero (45_host_contract.md R143). -/
def decimal (n : Nat) : List Char := decimalDigits (n.log2 + 1) n []

/-- A value that does not fit an IN register is reduced by the driver (45_host_contract.md R144). A value that fits is
written unreduced: the spec says the driver MAY, so for values from P to 2^256 - 1 this is the model's choice (log entry
17, DESIGN CHOICE). -/
def narrow (v : Nat) : Reg256 := if v < 2 ^ 256 then BitVec.ofNat 256 v else BitVec.ofNat 256 (fred v)

/-- After its HASH the driver reads STATUS and takes the digest only where ERR is OK (45_host_contract.md R145): else
another agent's transactions fell between its own, and it returns no digest (R146). -/
def readDigest (s : State) : HostResult Nat :=
  match hostRead statusOffset s with
  | .ok (st, s') => if st.extractLsb' 4 4 = 0 then rd256 .s0 s' else .error .disturbed
  | .error e => .error e

/-- The driver's register traffic (45_host_contract.md R145), with at most `n` STATUS reads in each `wait`. -/
def hashTraffic (n : Nat) (x y : Reg256) (s : State) : HostResult Nat :=
  match wait n s with
  | .ok s1 =>
    match loadRun n .hash x y s1 with
    | .ok s2 => readDigest s2
    | .error e => .error e
  | .error e => .error e

/-- `hash_str` (45_host_contract.md R140, R145): arity first, then both numerals, then the block. -/
def hashStr (n : Nat) (pre : List (List Char)) (s : State) : HostResult (List Char) :=
  if pre.length ≠ ARITY then .error .invalidArity
  else
    match pre with
    | [a, b] =>
      match parseNumeral a, parseNumeral b with
      | .ok v0, .ok v1 =>
        match hashTraffic n (narrow v0) (narrow v1) s with
        | .ok (d, s') => .ok (decimal d, s')
        | .error e => .error e
      | _, _ => .error .invalidNumeral
    | _ => .error .invalidArity

end Sys2Proof.Machine
end

