-- ==== Sys2Proof/Safety.lean ====
section
/-! DEFINITION. What counts as a safe state and a safe cycle, in the terms the statements use: the invariants of
10_state.md R32 with the operand stability of 70_reset_and_hazards.md R180, the cycles the machine stops on, and the
kinds of cycle at which a register may change. -/

namespace Sys2Proof.Machine

/-- The stored value is a field element (40_field_arithmetic.md R80). -/
def InFp (v : FieldReg) : Prop := v.toNat < P

/-- Every element of the triple is a field element. -/
def Triple.InFp (v : Triple) : Prop := v.s0 < P ∧ v.s1 < P ∧ v.s2 < P

/-- The in-flight command holds the operands it captured, they are still what the registers hold, and the engine's
progress leads to the result the command's rule gives (10_state.md R29, R30, 70_reset_and_hazards.md R180). -/
def Op.Faithful (s : State) : Op → Prop
  | .nop => True
  | .init x y => x = s.in0 ∧ y = s.in1
  | .round v k w => v = s.triple ∧ k.castSucc = s.rcnt ∧ w.finish (k.val + 1) = roundFn v k.val
  | .permute v k w => v = s.triple ∧ k.castSucc = s.rcnt ∧ w.finish NR = permFrom v k.val
  | .hash x y w => x = s.in0 ∧ y = s.in1 ∧ w.finish NR = perm (initTriple x.toNat y.toNat)
  | .modpow b e w => b = s.in0 ∧ e = s.in1 ∧ w.finish = Machine.modpow b.toNat e.toNat

/-- The invariants of 10_state.md R32. RCNT in [0, 8] and ERR in [0, 3] hold by the types of their fields, and IN0 and
IN1 are arbitrary. -/
structure Inv (s : State) : Prop where
  s0_inFp : InFp s.s0
  s1_inFp : InFp s.s1
  s2_inFp : InFp s.s2
  res_inFp : InFp s.res
  busy_iff_inflight : s.busy = true ↔ s.inflight ≠ none
  latency_left : ∀ f, s.inflight = some f → 1 ≤ f.remaining
  faithful : ∀ f, s.inflight = some f → f.op.Faithful s

/-- The address lies in the block's window (20_memory.md R41). -/
def InWindow (s : State) (addr : Nat) : Prop := s.base ≤ addr ∧ addr < s.base + 0x100

/-- The address a transaction carries. -/
def Transaction.addr : Transaction → Nat
  | .read addr _ => addr
  | .write addr _ _ => addr

/-- The cycle is one the model stops on: a transaction while the spec leaves the response unspecified
(70_reset_and_hazards.md R171), or one whose address is not the block's (20_memory.md R41). -/
def Stops (s : State) (c : Cycle) : Prop :=
  ∃ t, c.txn = some t ∧ (c.rstN = false ∨ s.settling = true ∨ ¬ InWindow s t.addr)

/-- The next step is a cycle out of reset in which the host makes this transaction, and it is not refused. -/
def NextTransaction (s : State) (t : Transaction) (rest : List Cycle) : Prop :=
  s.port = ⟨true, some t⟩ :: rest ∧ s.settling = false

/-- The cycle's state once the engine has had its part: what a transaction of that cycle is performed on. -/
def ready (s : State) (rest : List Cycle) : State := tick { s with port := rest }

/-- The next step is a cycle with `rst_n` = 0. -/
def ResetCycle (s : State) : Prop := (nextCycle s).1.rstN = false

/-- The next step is a cycle in which the in-flight command completes. -/
def CompletionCycle (s : State) (f : InFlight) : Prop :=
  s.inflight = some f ∧ f.remaining ≤ 1 ∧ (nextCycle s).1.rstN = true

/-- The next step is a cycle out of reset in which the host writes a word to an address of the window that is this
target. -/
def WriteCycle (s : State) (t : Target) (w : Word) : Prop :=
  ∃ addr, (nextCycle s).1 = ⟨true, some (.write addr 4 w)⟩ ∧ busSelect s.base addr 4 = .target t

/-- The block is idle, and the host does nothing from here on. -/
def QuietIdle (s : State) : Prop := s.busy = false ∧ s.settling = false ∧ s.port = []

/-- Until the listed cycles are over, every other agent only reads registers of the block, and there is no reset. -/
def OnlyReads (s : State) : Prop :=
  ∀ c ∈ s.port, c.rstN = true ∧ ∀ t, c.txn = some t → ∃ addr size, t = .read addr size ∧ InWindow s addr

/-- The command an in-flight record is of (10_state.md R29). -/
def Op.instr : Op → Instr
  | .nop => .nop
  | .init _ _ => .init
  | .round _ _ _ => .round
  | .permute _ _ _ => .permute
  | .hash _ _ _ => .hash
  | .modpow _ _ _ => .modpow

/-- `t` holds the results of the command that was in flight in `s` (40_field_arithmetic.md R90, 41_permutation.md R120
to R124), and every other data register and IN register is as in `s`. -/
def Op.Result (s t : State) (op : Op) : Prop :=
  t.in0 = s.in0 ∧ t.in1 = s.in1 ∧ t.busy = false ∧ t.inflight = none ∧
    match op with
    | .nop => t.triple = s.triple ∧ t.rcnt = s.rcnt ∧ t.res = s.res
    | .init x y => t.triple = initTriple x.toNat y.toNat ∧ t.rcnt = 0 ∧ t.res = s.res
    | .round v k _ => t.triple = roundFn v k.val ∧ t.rcnt.val = k.val + 1 ∧ t.res = s.res
    | .permute v k _ => t.triple = permFrom v k.val ∧ t.rcnt = Fin.last NR ∧ t.res = s.res
    | .hash x y _ => t.triple = perm (initTriple x.toNat y.toNat) ∧ t.rcnt = Fin.last NR ∧ t.res = s.res
    | .modpow b e _ => t.triple = s.triple ∧ t.rcnt = s.rcnt ∧ t.res.toNat = Machine.modpow b.toNat e.toNat

/-- The engine's progress after `n` cycles that do not complete the command. -/
def Op.advanceN : Nat → Op → Op
  | 0, op => op
  | n + 1, op => Op.advanceN n op.advance

/-- `n` cycles of the machine, stopping at the first fault or refusal. -/
def runFor : Nat → State → Host.Outcome State Fault Refusal
  | 0, s => .next s
  | n + 1, s =>
    match step s with
    | .next t => runFor n t
    | .fault r => .fault r
    | .refused r => .refused r

/-- The machine runs `n` cycles from the state a command is accepted in: the command is accepted here, and the host
then waits. -/
def runCommand (n : Nat) (i : Instr) (s : State) : Host.Outcome State Fault Refusal :=
  match exec i s with
  | .next t => runFor n t
  | .fault r => .fault r
  | .refused r => .refused r

/-- The latency of a command accepted in this state (70_reset_and_hazards.md R177). -/
def latency (i : Instr) (s : State) : Nat :=
  match i with
  | .nop => latNop s.params
  | .init => latInit s.params
  | .round => latRound s.params
  | .permute => if h : s.rcnt.val < NR then latPermute s.params ⟨s.rcnt.val, h⟩ else 1
  | .hash => latHash s.params
  | .modpow => latModpow s.params s.in1

/-- Commands one after another, each waited for before the next (41_permutation.md R125); `none` where the machine
stops. -/
def runCommands : List Instr → State → Option State
  | [], s => some s
  | i :: is, s =>
    match runCommand (latency i s) i s with
    | .next t => runCommands is t
    | .fault _ => none
    | .refused _ => none

end Sys2Proof.Machine
end

