-- ==== Sys2Proof/Certificates/Slice0/Obligations.lean ====
section
/-! DEFINITION. The statements for the provers, each with the rule of spec/ it formalises. -/

open Sys2Proof Sys2Proof.Machine

/-! Encoding -/

/-- 30_encoding.md R63: the decoder on all words. A word with a reserved bit set is illegal, a reserved opcode is
illegal, and the six words 0 to 5 are the six commands of R62. -/
def Obligations.DecoderIsTheSpecs : Prop :=
  ∀ w : Word,
    (w.toNat / 16 ≠ 0 → decode w = .error .reservedBits) ∧
    (w.toNat / 16 = 0 → 6 ≤ w.toNat → decode w = .error .reservedOpcode) ∧
    (decode w = .ok .nop ↔ w.toNat = 0) ∧
    (decode w = .ok .init ↔ w.toNat = 1) ∧
    (decode w = .ok .round ↔ w.toNat = 2) ∧
    (decode w = .ok .permute ↔ w.toNat = 3) ∧
    (decode w = .ok .hash ↔ w.toNat = 4) ∧
    (decode w = .ok .modpow ↔ w.toNat = 5)

/-- 30_encoding.md R60, R62: decoding inverts encoding, and each command has one word only. -/
def Obligations.DecodeAndEncodeAgree : Prop :=
  (∀ i : Instr, decode (encode i) = .ok i ∧ (CW.ofWord (encode i)).wellFormed = true) ∧
    ∀ (w : Word) (i : Instr), decode w = .ok i → w = encode i

/-- 30_encoding.md R62: words written out from the opcode map. -/
def Obligations.OpcodeMapWordsDecode : Prop :=
  decode 0x00000000#32 = .ok .nop ∧ decode 0x00000001#32 = .ok .init ∧ decode 0x00000002#32 = .ok .round ∧
    decode 0x00000003#32 = .ok .permute ∧ decode 0x00000004#32 = .ok .hash ∧ decode 0x00000005#32 = .ok .modpow ∧
    decode 0x00000006#32 = .error .reservedOpcode ∧ decode 0x00000014#32 = .error .reservedBits

/-! The step -/

/-- The host's write of a legal word to CMD is the command's `exec`, on the state in which the engine has had its part
of the cycle and the port answers OKAY (20_memory.md §3, 60_exceptions.md §1). -/
def Obligations.StepRunsTheDecodedCommand : Prop :=
  ∀ (s : State) (rest : List Cycle) (w : Word) (i : Instr),
    NextTransaction s (.write (s.base + 0xC0) 4 w) rest → decode w = .ok i →
      step s = exec i (answerWrite .okay (ready s rest))

/-- How a program comes to run (log entry 3, the model's convention): a placed command's word is written to CMD by the
host in the very next cycle, the first cycle after reset being over. -/
def Obligations.PlacedCommandIsTheNextStep : Prop :=
  ∀ (s : State) (w : Word) (i : Instr), decode w = .ok i →
    step (s.withFetchWord 32 w.toNat) = exec i (answerWrite .okay (tick { s with settling := false }))

/-- 60_exceptions.md R151, with R155's order: what a write of any word to CMD does. The port answers OKAY in every
case; BUSY comes before ILLEGAL, and ILLEGAL before SEQ; an accepted command sets BUSY, clears ERR and records its
opcode, its operands and its latency, and nothing else changes. -/
def Obligations.CommandAcceptanceAndPriority : Prop :=
  ∀ (s : State) (rest : List Cycle) (w : Word),
    NextTransaction s (.write (s.base + 0xC0) 4 w) rest →
    let t := answerWrite .okay (ready s rest)
    (t.busy = true → step s = .next { t with err := .busy }) ∧
    (t.busy = false → (∀ i, decode w ≠ .ok i) → step s = .next { t with err := .illegal }) ∧
    ∀ i, t.busy = false → decode w = .ok i →
      ((i = .round ∨ i = .permute) → t.rcnt = 8 → step s = .next { t with err := .seq }) ∧
      (¬ ((i = .round ∨ i = .permute) ∧ t.rcnt = 8) →
        ∃ f : InFlight, f.op.instr = i ∧ f.op.Faithful t ∧ f.remaining = latency i t ∧
          step s = .next { t with err := .ok, busy := true, inflight := some f })

/-- The only cycles the machine stops on: a transaction during reset or in the first cycle after it, which
70_reset_and_hazards.md §1 has a model refuse, and a transaction whose address is not the block's. That the machine
STOPS on such an address is the model's choice (log entry 6, DESIGN CHOICE): 20_memory.md §1 says only that the address
does not belong to the block. Everything else makes a next state (60_exceptions.md §1). -/
def Obligations.OnlyTheseCyclesStop : Prop :=
  ∀ s : State, (∃ t, step s = .next t) ↔ ¬ Stops s (nextCycle s).1

/-- 70_reset_and_hazards.md R171: a transaction while `rst_n` = 0 or in the first cycle after it rises is refused. -/
def Obligations.TransactionsAroundResetAreRefused : Prop :=
  ∀ (s : State) (t : Transaction) (rest : List Cycle),
    (s.port = ⟨false, some t⟩ :: rest → step s = .refused .transactionDuringReset) ∧
    (s.port = ⟨true, some t⟩ :: rest → s.settling = true → step s = .refused .transactionInFirstCycle) ∧
    (s.port = ⟨false, none⟩ :: rest → ∃ u, step s = .next u ∧ u.settling = true) ∧
    (s.port = ⟨true, none⟩ :: rest → ∃ u, step s = .next u ∧ u.settling = false)

/-- An address outside [BASE, BASE + 0x100) is not the block's (20_memory.md §1); that the machine stops on it, by this
name, is the model's choice (log entry 6, DESIGN CHOICE). -/
def Obligations.AddressesOutsideTheWindowFault : Prop :=
  ∀ (s : State) (t : Transaction) (rest : List Cycle),
    NextTransaction s t rest → ¬ InWindow s t.addr → step s = .fault .addressOutsideWindow

/-! Reset and invariants -/

/-- 10_state.md R33: the reset values. -/
def Obligations.ResetStateHoldsTheSpecValues : Prop :=
  let s := State.reset
  s.in0 = 0 ∧ s.in1 = 0 ∧ s.s0 = 0 ∧ s.s1 = 0 ∧ s.s2 = 0 ∧ s.res = 0 ∧ s.busy = false ∧ s.err = .ok ∧ s.rcnt = 8 ∧
    s.inflight = none ∧ statusWord s = 0x00000800#32

/-- A reset cycle in any state, with or without a command in flight: every register takes its reset value and the
in-flight command is abandoned, none of its effects appearing (70_reset_and_hazards.md §1). -/
def Obligations.ResetCycleAbandonsTheCommand : Prop :=
  ∀ (s : State) (rest : List Cycle), s.port = ⟨false, none⟩ :: rest →
    ∃ t, step s = .next t ∧ t.in0 = 0 ∧ t.in1 = 0 ∧ t.s0 = 0 ∧ t.s1 = 0 ∧ t.s2 = 0 ∧ t.res = 0 ∧ t.busy = false ∧
      t.err = .ok ∧ t.rcnt = 8 ∧ t.inflight = none ∧ t.port = rest ∧ t.params = s.params

/-- 10_state.md R32 at reset. -/
def Obligations.InvariantHoldsAtReset : Prop := Inv State.reset

/-- 10_state.md R32: every step keeps the invariants: the stored elements are in Fp, BUSY = 1 exactly with an in-flight
record, and that record's operands are what the registers hold. -/
def Obligations.EveryStepKeepsTheInvariant : Prop :=
  ∀ s t : State, Inv s → step s = .next t → Inv t

/-- No step changes the parameters of 00_scope.md R9. -/
def Obligations.ParametersNeverChange : Prop :=
  ∀ s t : State, step s = .next t → t.params = s.params

/-! Field arithmetic -/

/-- 40_field_arithmetic.md R81: reduction of a 256-bit value takes at most five subtractions of P and is exact. -/
def Obligations.ReductionIsExact : Prop :=
  ∀ x : Nat, fred x < P ∧ (∃ q, x = fred x + q * P) ∧ (x < 2 ^ 256 → ∃ q, q ≤ 5 ∧ fred x = x - q * P ∧ q * P ≤ x)

/-- The closed form of the square-and-multiply loop, for every base and exponent, with x^0 = 1
(40_field_arithmetic.md §2). -/
def Obligations.ModpowIsThePower : Prop :=
  ∀ b e : Nat, modpow b e = (b % P) ^ e % P ∧ modpow b e < P

/-- The corner cases MODPOW's rule lists (40_field_arithmetic.md §4). -/
def Obligations.ModpowCornerCases : Prop :=
  (∀ b, modpow b 0 = 1) ∧
    (∀ b e, b % P = 0 → 1 ≤ e → modpow b e = 0) ∧
    (modpow (P + 3) 5 = 243) ∧
    (∀ e, modpow 1 e = 1) ∧
    (∀ e, modpow (P - 1) (2 * e) = 1 ∧ modpow (P - 1) (2 * e + 1) = P - 1) ∧
    (∀ b, fred b ≠ 0 → modpow b (P - 1) = 1)

/-- The S-box is the fifth power, a bijection on the field with the inverse the spec gives, and keeps 0, 1 and P - 1
(40_field_arithmetic.md §2, 00_scope.md §4). -/
def Obligations.SboxIsTheFifthPowerBijection : Prop :=
  (∀ x, sbox x = x ^ 5 % P) ∧
    (∀ x, x < P →
      modpow (sbox x) 17510594297471420177797124596205820070838691520332827474958563349260646796493 = x ∧
      sbox (modpow x 17510594297471420177797124596205820070838691520332827474958563349260646796493) = x) ∧
    sbox 0 = 0 ∧ sbox 1 = 1 ∧ sbox (P - 1) = P - 1

/-! The permutation -/

/-- 41_permutation.md R101, R102: the sequence of round types and the table of round constants. -/
def Obligations.RoundTypesAndConstants : Prop :=
  (List.range 8).map rtype = [.full, .full, .part, .part, .part, .part, .full, .full] ∧
    (List.range 8).map rc =
      [⟨1, 2, 3⟩, ⟨2, 3, 4⟩, ⟨12, 22, 32⟩, ⟨13, 23, 33⟩, ⟨14, 24, 34⟩, ⟨15, 25, 35⟩, ⟨7, 8, 9⟩, ⟨8, 9, 10⟩] ∧
    ∀ r, r < 8 → (rc r).InFp

/-- A partial round adds constants to all three elements and substitutes the first only; a full round substitutes all
three; the mixing takes the substituted values (41_permutation.md §2). -/
def Obligations.RoundsFollowTheirType : Prop :=
  ∀ (v : Triple) (r : Nat), r < 8 →
    let c := rc r
    let a0 := (v.s0 + c.s0) % P
    let a1 := (v.s1 + c.s1) % P
    let a2 := (v.s2 + c.s2) % P
    (2 ≤ r ∧ r < 6 → c = ⟨r + 10, r + 20, r + 30⟩ ∧ roundFn v r = mix ⟨a0 ^ 5 % P, a1, a2⟩) ∧
    (¬ (2 ≤ r ∧ r < 6) → c = ⟨r + 1, r + 2, r + 3⟩ ∧ roundFn v r = mix ⟨a0 ^ 5 % P, a1 ^ 5 % P, a2 ^ 5 % P⟩)

/-- The properties of the mixer (41_permutation.md §2): its outputs are the rows of the matrix, their sum is four times
the inputs' sum, differences are kept, and it is a bijection on the field triples. -/
def Obligations.MixerProperties : Prop :=
  (∀ v : Triple, v.InFp →
    mix v = ⟨(2 * v.s0 + v.s1 + v.s2) % P, (v.s0 + 2 * v.s1 + v.s2) % P, (v.s0 + v.s1 + 2 * v.s2) % P⟩ ∧
    ((mix v).s0 + (mix v).s1 + (mix v).s2) % P = 4 * (v.s0 + v.s1 + v.s2) % P ∧
    ((mix v).s0 + v.s1) % P = ((mix v).s1 + v.s0) % P ∧
    ((mix v).s1 + v.s2) % P = ((mix v).s2 + v.s1) % P ∧
    (mix v).InFp) ∧
  (∀ u : Triple, u.InFp → ∃ v : Triple, v.InFp ∧ mix v = u) ∧
  ∀ v w : Triple, v.InFp → w.InFp → mix v = mix w → v = w

/-- The rounds from any index on are a bijection on the field triples (41_permutation.md §3). -/
def Obligations.PermutationIsABijection : Prop :=
  ∀ k, k ≤ 8 →
    (∀ v : Triple, v.InFp → (permFrom v k).InFp) ∧
    (∀ u : Triple, u.InFp → ∃ v : Triple, v.InFp ∧ permFrom v k = u) ∧
    ∀ v w : Triple, v.InFp → w.InFp → permFrom v k = permFrom w k → v = w

/-- 41_permutation.md R111: the digest depends on the residues only and lies in Fp. -/
def Obligations.DigestDependsOnResidues : Prop :=
  (∀ x y x' y' : Nat, x % P = x' % P → y % P = y' % P → H x y = H x' y') ∧ (∀ x y : Nat, H x y < P) ∧ H P 0 = H 0 0

/-! The commands: acceptance and completion -/

/-- 41_permutation.md R124: NOP. Accepted when idle, rejected when busy; after its latency BUSY is 0 again, ERR is 0
and everything else is unchanged. -/
def Obligations.NopClearsErrAndNothingElse : Prop :=
  decode 0x00000000#32 = .ok .nop ∧ ∀ s : State,
    (s.busy = true → exec .nop s = .next { s with err := .busy }) ∧
    (s.busy = false →
      exec .nop s = .next { s with err := .ok, busy := true, inflight := some ⟨.nop, latNop s.params⟩ }) ∧
    (QuietIdle s → runCommand (latNop s.params) .nop s =
      .next { s with err := .ok, busy := false, inflight := none, answer := none })

/-- 41_permutation.md R120: INIT, at any RCNT. IN0 and IN1 are captured at acceptance; at completion S0, S1 and S2 hold
the reduced inputs and 0, and RCNT is 0; nothing else changes. -/
def Obligations.InitLoadsTheReducedInputs : Prop :=
  decode 0x00000001#32 = .ok .init ∧ P % P = 0 ∧
  (2 ^ 256 - 1) % P = 6350874878119819312338956282401532410528162663560392320966563075034087161850 ∧ ∀ s : State,
    (s.busy = true → exec .init s = .next { s with err := .busy }) ∧
    (s.busy = false → exec .init s =
      .next { s with err := .ok, busy := true, inflight := some ⟨.init s.in0 s.in1, latInit s.params⟩ }) ∧
    (QuietIdle s → ∃ t, runCommand (latInit s.params) .init s = .next t ∧
      t.s0.toNat = s.in0.toNat % P ∧ t.s1.toNat = s.in1.toNat % P ∧ t.s2.toNat = 0 ∧
      t = { s with s0 := t.s0, s1 := t.s1, s2 := t.s2, rcnt := 0, err := .ok, busy := false, inflight := none,
                   answer := none })

/-- 41_permutation.md R121: ROUND. Rejected with SEQ at RCNT = 8; else the round of index RCNT is applied to the state
and RCNT is one more; nothing else changes. -/
def Obligations.RoundAppliesOneRound : Prop :=
  decode 0x00000002#32 = .ok .round ∧ ∀ s : State,
    (s.busy = true → exec .round s = .next { s with err := .busy }) ∧
    (s.busy = false → s.rcnt = 8 → exec .round s = .next { s with err := .seq }) ∧
    (s.busy = false → ∀ k : Fin 8, s.rcnt = k.castSucc →
      (exec .round s = .next { s with
          err := .ok, busy := true
          inflight := some ⟨.round s.triple k ⟨k.val, .before, s.triple⟩, latRound s.params⟩ }) ∧
      (QuietIdle s → ∃ t, runCommand (latRound s.params) .round s = .next t ∧ t.triple = roundFn s.triple k.val ∧
        t.rcnt.val = k.val + 1 ∧
        t = { s with s0 := t.s0, s1 := t.s1, s2 := t.s2, rcnt := t.rcnt, err := .ok, busy := false, inflight := none,
                     answer := none })) ∧
    roundFn ⟨0, 0, 0⟩ 0 = ⟨277, 308, 519⟩

/-- 41_permutation.md R122: PERMUTE. Rejected with SEQ at RCNT = 8; else the rounds from RCNT to 7 are applied and RCNT
is 8; at RCNT = 7 that is one round, at RCNT = 0 the whole permutation; nothing else changes. -/
def Obligations.PermuteAppliesTheRemainingRounds : Prop :=
  decode 0x00000003#32 = .ok .permute ∧ ∀ s : State,
    (s.busy = true → exec .permute s = .next { s with err := .busy }) ∧
    (s.busy = false → s.rcnt = 8 → exec .permute s = .next { s with err := .seq }) ∧
    (s.busy = false → ∀ k : Fin 8, s.rcnt = k.castSucc →
      (exec .permute s = .next { s with
          err := .ok, busy := true
          inflight := some ⟨.permute s.triple k ⟨k.val, .before, s.triple⟩, latPermute s.params k⟩ }) ∧
      (QuietIdle s → ∃ t, runCommand (latPermute s.params k) .permute s = .next t ∧
        t.triple = permFrom s.triple k.val ∧ (k = 7 → t.triple = roundFn s.triple 7) ∧
        (k = 0 → t.triple = perm s.triple) ∧
        t = { s with s0 := t.s0, s1 := t.s1, s2 := t.s2, rcnt := 8, err := .ok, busy := false, inflight := none,
                     answer := none }))

/-- 41_permutation.md R123: HASH, at any RCNT. At completion S0 holds the digest of IN0 and IN1 as they were at
acceptance, S1 and S2 the rest of the final state, and RCNT is 8; nothing else changes. -/
def Obligations.HashRunsToTheDigest : Prop :=
  decode 0x00000004#32 = .ok .hash ∧
  (∀ s : State,
    (s.busy = true → exec .hash s = .next { s with err := .busy }) ∧
    (s.busy = false → exec .hash s = .next { s with
        err := .ok, busy := true
        inflight := some ⟨.hash s.in0 s.in1 ⟨0, .before, ⟨s.in0.toNat % P, s.in1.toNat % P, 0⟩⟩, latHash s.params⟩ }) ∧
    (QuietIdle s → ∃ t, runCommand (latHash s.params) .hash s = .next t ∧
      t.triple = perm (initTriple s.in0.toNat s.in1.toNat) ∧ t.s0.toNat = H s.in0.toNat s.in1.toNat ∧
      t = { s with s0 := t.s0, s1 := t.s1, s2 := t.s2, rcnt := 8, err := .ok, busy := false, inflight := none,
                   answer := none })) ∧
  H 0 0 = 3726168635605505378214265510820414452620660667547784670125577659766201037750 ∧
  H 1 2 = 12549028707974041819487093793818750400883759195492777583506602954624394362327 ∧ H P 0 = H 0 0

/-- MODPOW (40_field_arithmetic.md §4): at completion RES holds (IN0 mod P)^IN1 mod P, IN0 and IN1 as they were at
acceptance; S0, S1, S2, RCNT and everything else are unchanged. -/
def Obligations.ModpowWritesThePowerToRes : Prop :=
  decode 0x00000005#32 = .ok .modpow ∧ ∀ s : State,
    (s.busy = true → exec .modpow s = .next { s with err := .busy }) ∧
    (s.busy = false → exec .modpow s = .next { s with
        err := .ok, busy := true
        inflight := some ⟨.modpow s.in0 s.in1 ⟨1, s.in0.toNat % P, s.in1.toNat⟩, latModpow s.params s.in1⟩ }) ∧
    (QuietIdle s → ∃ t, runCommand (latModpow s.params s.in1) .modpow s = .next t ∧
      t.res.toNat = (s.in0.toNat % P) ^ s.in1.toNat % P ∧
      t = { s with res := t.res, err := .ok, busy := false, inflight := none, answer := none })

/-- At acceptance or rejection a command changes ERR, BUSY and the in-flight record only (60_exceptions.md §1). -/
def Obligations.CommandWriteFrame : Prop :=
  ∀ (i : Instr) (s t : State), exec i s = .next t →
    t = { s with err := t.err, busy := t.busy, inflight := t.inflight } ∧
    (t.err ≠ .ok → t.busy = s.busy ∧ t.inflight = s.inflight) ∧
    (t.err = .ok → s.busy = false ∧ t.busy = true)

/-- Every command is decided without a stop, in every state (60_exceptions.md §1). -/
def Obligations.EveryCommandIsDecided : Prop :=
  ∀ (i : Instr) (s : State), ∃ t, exec i s = .next t ∧
    (t.err = if s.busy then .busy else if (i = .round ∨ i = .permute) ∧ s.rcnt = 8 then .seq else .ok)

/-- 41_permutation.md R125: HASH; INIT, PERMUTE; INIT and eight ROUNDs; INIT, k ROUNDs and PERMUTE: each leaves the same
S0, S1, S2 and RCNT = 8. -/
def Obligations.CommandSequencesAreEquivalent : Prop :=
  ∀ s : State, QuietIdle s → ∃ v : Triple, ∀ cs : List Instr,
    (cs = [.hash] ∨ cs = [.init, .permute] ∨ cs = .init :: List.replicate 8 .round ∨
      ∃ k, 1 ≤ k ∧ k ≤ 7 ∧ cs = .init :: (List.replicate k .round ++ [.permute])) →
    ∃ t, runCommands cs s = some t ∧ t.triple = v ∧ t.rcnt = 8 ∧ t.busy = false ∧ t.in0 = s.in0 ∧ t.in1 = s.in1

/-- The latencies and the window's place do not show in a command's result (70_reset_and_hazards.md §2): two idle blocks
that differ in their parameters only end a command, accepted or not, in states that differ in their parameters only. -/
def Obligations.ParametersDoNotShowInResults : Prop :=
  ∀ (i : Instr) (s t : State) (p : Params), QuietIdle s → s.inflight = none → runCommand (latency i s) i s = .next t →
    runCommand (latency i { s with params := p }) i { s with params := p } = .next { t with params := p }

/-! The engine -/

/-- One cycle of the engine keeps the record faithful: the captured operands, and the result its progress leads to
(10_state.md §4; the pace of the progress is the model's choice, log entry 4). -/
def Obligations.EngineProgressKeepsTheResult : Prop :=
  ∀ (op : Op) (s : State), op.Faithful s → op.advance.Faithful s ∧ op.advance.instr = op.instr

/-- Whatever the host does short of reset, an in-flight command stays in flight, no data register changes, and one
cycle of its latency passes with each step (70_reset_and_hazards.md §2, §3). How far the hidden progress is in a given
cycle, the `advanceN n` of the record, is the model's pace (log entry 4, DESIGN CHOICE) and no rule of the spec. -/
def Obligations.HostCannotDisturbTheCommand : Prop :=
  ∀ (n : Nat) (s u : State) (f : InFlight), Inv s → s.inflight = some f → n < f.remaining →
    (∀ c ∈ s.port, c.rstN = true) → runFor n s = .next u →
      u.inflight = some ⟨f.op.advanceN n, f.remaining - n⟩ ∧ u.busy = true ∧ u.in0 = s.in0 ∧ u.in1 = s.in1 ∧
      u.s0 = s.s0 ∧ u.s1 = s.s1 ∧ u.s2 = s.s2 ∧ u.res = s.res ∧ u.rcnt = s.rcnt

/-- Whatever the host does short of reset, an accepted command completes when its latency is over, with the results its
rule gives for the operands it captured, all in one update (70_reset_and_hazards.md §2). -/
def Obligations.EveryCommandCompletesWithItsResult : Prop :=
  ∀ (s u : State) (f : InFlight), Inv s → s.inflight = some f → (∀ c ∈ s.port, c.rstN = true) →
    runFor (f.remaining - 1) s = .next u → f.op.Result s (tick u)

/-- S0, S1, S2 and RCNT change in a reset cycle, or all together in the cycle a permutation command completes, and RCNT
then becomes 0, one more, or 8 (10_state.md §1, §3, 41_permutation.md §3, 70_reset_and_hazards.md §2). -/
def Obligations.StateChangesOnlyAtCompletion : Prop :=
  ∀ s t : State, Inv s → step s = .next t → (t.s0 ≠ s.s0 ∨ t.s1 ≠ s.s1 ∨ t.s2 ≠ s.s2 ∨ t.rcnt ≠ s.rcnt) →
    ResetCycle s ∨ ∃ f, CompletionCycle s f ∧ f.op.writesState = true ∧
      ((f.op.instr = .init ∧ t.rcnt = 0) ∨ (f.op.instr = .round ∧ t.rcnt.val = s.rcnt.val + 1) ∨
        ((f.op.instr = .permute ∨ f.op.instr = .hash) ∧ t.rcnt = 8))

/-- Only MODPOW and reset write RES (10_state.md §2). -/
def Obligations.OnlyModpowAndResetWriteRes : Prop :=
  ∀ s t : State, step s = .next t → t.res ≠ s.res →
    ResetCycle s ∨ ∃ f, CompletionCycle s f ∧ f.op.instr = .modpow

/-- IN0 and IN1 change in a reset cycle, or by the host's write of one word while BUSY = 0 (10_state.md §2). -/
def Obligations.OnlyTheHostWritesInputs : Prop :=
  ∀ s t : State, step s = .next t →
    (t.in0 ≠ s.in0 → ResetCycle s ∨ ∃ k w, WriteCycle s (.word .in0 k) w ∧ (tick s).busy = false ∧
      t.in0 = setRegWord s.in0 k w) ∧
    (t.in1 ≠ s.in1 → ResetCycle s ∨ ∃ k w, WriteCycle s (.word .in1 k) w ∧ (tick s).busy = false ∧
      t.in1 = setRegWord s.in1 k w)

/-- ERR changes in a reset cycle, at a CMD write, or at a write to IN0 or IN1 while BUSY = 1, and at nothing else: not
at a completion, a read or a bus error (10_state.md §3). -/
def Obligations.ErrChangesOnlyAtItsEvents : Prop :=
  ∀ s t : State, step s = .next t → t.err ≠ s.err →
    ResetCycle s ∨ (∃ w, WriteCycle s .cmd w) ∨
      ((tick s).busy = true ∧ t.err = .busy ∧ ∃ k w, WriteCycle s (.word .in0 k) w ∨ WriteCycle s (.word .in1 k) w)

/-- BUSY rises only by the acceptance of a command, and falls only by a completion or a reset cycle (10_state.md §3). -/
def Obligations.BusyRisesAndFallsAsTheRulesSay : Prop :=
  ∀ s t : State, step s = .next t →
    (s.busy = false → t.busy = true → ∃ w i f, WriteCycle s .cmd w ∧ decode w = .ok i ∧ t.err = .ok ∧
      t.inflight = some f ∧ f.op.instr = i) ∧
    (s.busy = true → t.busy = false → ResetCycle s ∨ ∃ f, CompletionCycle s f)

/-! The port -/

/-- 20_memory.md R42: the words of a 256-bit register, the offsets they stand at, and the value a host assembles from
them. -/
def Obligations.EightWordsAssembleTheRegister : Prop :=
  (∀ v : Reg256, (∀ k : Fin 8, (regWord v k).toNat = v.toNat / 2 ^ (32 * k.val) % 2 ^ 32) ∧
    assemble (regWord v) = v.toNat) ∧
  ∀ (b : Bank) (k : Fin 8), targetOf (bankOffset b + 4 * k.val) = some (.word b k)

/-- Byte lanes are little-endian: lane j of a word stands at byte address +j, so the 32 bytes of a register at rising
addresses are its bytes from the least significant up (20_memory.md §2). -/
def Obligations.ByteLanesAreLittleEndian : Prop :=
  (∀ w : Word, wordOfLanes (lane w 0) (lane w 1) (lane w 2) (lane w 3) = w ∧
    ∀ j : Fin 4, (lane w j).toNat = w.toNat / 2 ^ (8 * j.val) % 2 ^ 8) ∧
  ∀ (v : Reg256) (k : Fin 8) (j : Fin 4) (i : Fin 32), i.val = 4 * k.val + j.val → lane (regWord v k) j = regByte v i

/-- A write to an IN word while BUSY = 0 replaces exactly that word: the port answers OKAY, the other seven words and
everything else keep their values (20_memory.md §2, §3). -/
def Obligations.InputWriteReplacesOneWord : Prop :=
  ∀ (s : State) (rest : List Cycle) (k : Fin 8) (w : Word), (ready s rest).busy = false →
    (NextTransaction s (.write (s.base + 4 * k.val) 4 w) rest → ∃ v,
      step s = .next { ready s rest with in0 := v, answer := some (.write .okay) } ∧
      ∀ j, regWord v j = if j = k then w else regWord s.in0 j) ∧
    (NextTransaction s (.write (s.base + 0x20 + 4 * k.val) 4 w) rest → ∃ v,
      step s = .next { ready s rest with in1 := v, answer := some (.write .okay) } ∧
      ∀ j, regWord v j = if j = k then w else regWord s.in1 j)

/-- 70_reset_and_hazards.md R180: while BUSY = 1 a write to IN0, IN1 or CMD is ignored with ERR = BUSY and response
OKAY, the in-flight command included; a write to a read-only register or an unmapped offset stays a bus error. -/
def Obligations.WritesWhileBusyAreIgnored : Prop :=
  ∀ (s : State) (rest : List Cycle) (off : Nat) (w : Word), (ready s rest).busy = true → off % 4 = 0 →
    NextTransaction s (.write (s.base + off) 4 w) rest →
    (off < 0x40 ∨ off = 0xC0 →
      step s = .next { ready s rest with err := .busy, answer := some (.write .okay) }) ∧
    (0x40 ≤ off → off < 0xC0 → step s = .next { ready s rest with answer := some (.write .error) }) ∧
    (0xC4 ≤ off → off < 0x100 → step s = .next { ready s rest with answer := some (.write .error) })

/-- 60_exceptions.md R153: the four bus errors, on reads and writes. The port answers ERROR with data 0, and nothing
changes but what the engine does in that cycle. -/
def Obligations.BusErrorsChangeNothing : Prop :=
  ∀ (s : State) (rest : List Cycle) (off size : Nat) (w : Word), off < 0x100 →
    (NextTransaction s (.read (s.base + off) size) rest → size ≠ 4 ∨ off % 4 ≠ 0 ∨ 0xC8 ≤ off →
      step s = .next { ready s rest with answer := some (.read 0 .error) }) ∧
    (NextTransaction s (.write (s.base + off) size w) rest →
      size ≠ 4 ∨ off % 4 ≠ 0 ∨ 0xC8 ≤ off ∨ (0x40 ≤ off ∧ off < 0xC0) ∨ (0xC4 ≤ off ∧ off < 0xC8) →
      step s = .next { ready s rest with answer := some (.write .error) })

/-- A read of a register no in-flight command is about to write returns its word and changes nothing; CMD reads as 0
(20_memory.md §3). -/
def Obligations.StableReadsReturnTheWord : Prop :=
  ∀ (s : State) (rest : List Cycle),
    (∀ (b : Bank) (k : Fin 8), NextTransaction s (.read (s.base + bankOffset b + 4 * k.val) 4) rest →
      (ready s rest).bankUnsettled b = false →
      step s = .next { ready s rest with answer := some (.read (regWord ((ready s rest).bank b) k) .okay) }) ∧
    (NextTransaction s (.read (s.base + 0xC0) 4) rest →
      step s = .next { ready s rest with answer := some (.read 0 .okay) })

/-- Which reads are unspecified (70_reset_and_hazards.md §3): S0, S1 and S2 while INIT, ROUND, PERMUTE or HASH is in
flight, RES while MODPOW is, and no other. Such a read is a free value, a new one for each read, and changes nothing
else. -/
def Obligations.UnspecifiedReadsAreFreeDraws : Prop :=
  (∀ (s : State) (b : Bank), Inv s → (s.bankUnsettled b = true ↔ ∃ f, s.inflight = some f ∧
    ((b = .res ∧ f.op.instr = .modpow) ∨
      ((b = .s0 ∨ b = .s1 ∨ b = .s2) ∧
        (f.op.instr = .init ∨ f.op.instr = .round ∨ f.op.instr = .permute ∨ f.op.instr = .hash))))) ∧
  ∀ (s : State) (rest : List Cycle) (b : Bank) (k : Fin 8),
    NextTransaction s (.read (s.base + bankOffset b + 4 * k.val) 4) rest →
    (ready s rest).bankUnsettled b = true →
    step s = .next { ready s rest with
      answer := some (.read (Config.freeWord (ready s rest).draws) .okay), draws := (ready s rest).draws + 1 }

/-- 10_state.md R26: the STATUS word is RCNT·0x100 + ERR·0x10 + BUSY, its reserved bits 0. -/
def Obligations.StatusWordLayout : Prop :=
  ∀ s : State, (statusWord s).toNat = s.rcnt.val * 0x100 + s.err.code.toNat * 0x10 + s.busy.toNat ∧
    s.err.code.toNat ≤ 3 ∧ s.rcnt.val ≤ 8

/-- A STATUS read returns BUSY and ERR in every state, and RCNT unless a permutation command is in flight, when RCNT is
some value in 0..8; so a poll that sees BUSY = 0 is made in a state with no command in flight (20_memory.md §3, §5,
70_reset_and_hazards.md §3). -/
def Obligations.StatusReadsSeeBusyAndErr : Prop :=
  ∀ (s : State) (rest : List Cycle), NextTransaction s (.read (s.base + 0xC4) 4) rest →
    ∃ (t : State) (d : Word) (r : Fin 9), step s = .next t ∧ t.answer = some (.read d .okay) ∧
      t = { ready s rest with answer := t.answer, draws := t.draws } ∧
      d.toNat = r.val * 0x100 + t.err.code.toNat * 0x10 + t.busy.toNat ∧
      (t.stateUnsettled = false → r = t.rcnt ∧ t.draws = s.draws) ∧
      (t.stateUnsettled = true → r = Config.freeRcnt s.draws ∧ t.draws = s.draws + 1)

/-- The element registers read zero-extended: bits 255 and 254 are 0 (10_state.md §2). -/
def Obligations.ElementRegistersReadZeroExtended : Prop :=
  ∀ s : State, (s.bank .s0).toNat = s.s0.toNat ∧ (s.bank .s1).toNat = s.s1.toNat ∧ (s.bank .s2).toNat = s.s2.toNat ∧
    (s.bank .res).toNat = s.res.toNat ∧
    ∀ b, b ≠ .in0 → b ≠ .in1 → (regWord (s.bank b) 7).toNat < 2 ^ 30

/-- A word written to IN0 or IN1 while idle is what the very next cycle's read of it returns (10_state.md §2,
70_reset_and_hazards.md §3). -/
def Obligations.NextReadSeesTheInputWrite : Prop :=
  ∀ (s : State) (rest : List Cycle) (b : Bank) (k : Fin 8) (w : Word),
    b = .in0 ∨ b = .in1 → (tick s).busy = false → s.settling = false →
    s.port = ⟨true, some (.write (s.base + bankOffset b + 4 * k.val) 4 w)⟩ ::
      ⟨true, some (.read (s.base + bankOffset b + 4 * k.val) 4)⟩ :: rest →
    ∃ t, runFor 2 s = .next t ∧ t.answer = some (.read w .okay)

/-! The host driver (surrounding software) -/

/-- 45_host_contract.md R143: the decimal form is canonical and reads back as the number it came from. -/
def Obligations.DecimalFormIsCanonical : Prop :=
  ∀ n : Nat, parseNumeral (decimal n) = .ok n ∧ (decimal n).all isDecimal = true ∧ decimal 0 = ['0'] ∧
    (n ≠ 0 → (decimal n).head? ≠ some '0')

/-- 45_host_contract.md R144: a value too wide for the register is replaced by its residue, and no digest changes. That
a value from P to 2^256 - 1 is written unreduced is the model's choice (log entry 17, DESIGN CHOICE): the spec says the
driver MAY. -/
def Obligations.NarrowingKeepsTheDigest : Prop :=
  ∀ v w : Nat, (v < 2 ^ 256 → (narrow v).toNat = v) ∧ (2 ^ 256 ≤ v → (narrow v).toNat = v % P) ∧
    H (narrow v).toNat (narrow w).toNat = H v w

/-- The driver's result (45_host_contract.md): on an idle block, with enough polls for the latency of HASH, it returns
the decimal form of the digest of the two numerals, whatever other agents read meanwhile; a wrong arity or a malformed
numeral is an error. That the polls are bounded, and that the driver takes the cycles the listed inputs leave free and
uses up the listed ones before, is the model's choice (log entry 13, DESIGN CHOICE). -/
def Obligations.DriverReturnsTheDigest : Prop :=
  (∀ (s : State) (n : Nat) (a b : List Char) (v0 v1 : Nat),
    s.busy = false → s.inflight = none → s.settling = false → OnlyReads s → latHash s.params ≤ n →
    parseNumeral a = .ok v0 → parseNumeral b = .ok v1 →
    ∃ t, hashStr n [a, b] s = .ok (decimal (H v0 v1), t) ∧ t.s0.toNat = H v0 v1 ∧ t.res = s.res ∧
      ∃ used, s.port = used ++ t.port) ∧
  (∀ (s : State) (n : Nat) (pre : List (List Char)), pre.length ≠ 2 → hashStr n pre s = .error .invalidArity) ∧
  ∀ (s : State) (n : Nat) (a b : List Char), (∀ v, parseNumeral a ≠ .ok v) ∨ (∀ v, parseNumeral b ≠ .ok v) →
    hashStr n [a, b] s = .error .invalidNumeral

/-- A disturbed driver returns no digest (45_host_contract.md): where ERR is not OK once its HASH has been waited for,
because another agent's transactions fell between the driver's own (20_memory.md §5), it ends with the error that says
so. Which cycles are the driver's is the model's choice (log entry 13, DESIGN CHOICE). -/
def Obligations.DisturbedDriverReturnsNoDigest : Prop :=
  ∀ (s s1 s2 : State) (n : Nat) (a b : List Char) (v0 v1 : Nat),
    parseNumeral a = .ok v0 → parseNumeral b = .ok v1 → wait n s = .ok s1 →
    loadRun n .hash (narrow v0) (narrow v1) s1 = .ok s2 →
    s2.err ≠ .ok → s2.settling = false → OnlyReads s2 →
    hashStr n [a, b] s = .error .disturbed
end

