-- ==== Sys2Proof/Laws/Field.lean ====
section
/-! SUPPORT. Laws of the field arithmetic: every result is in Fp, and the square-and-multiply loop keeps its value from
turn to turn (40_field_arithmetic.md R81 to R85). -/

namespace Sys2Proof.Machine

theorem P_pos : 0 < P := by decide

theorem one_lt_P : 1 < P := by decide

theorem P_lt_two_pow : P < 2 ^ 254 := by decide

theorem fred_lt (x : Nat) : fred x < P := Nat.mod_lt _ P_pos

theorem fadd_lt (a b : Nat) : fadd a b < P := Nat.mod_lt _ P_pos

theorem fsum_lt (a b c : Nat) : fsum a b c < P := Nat.mod_lt _ P_pos

theorem fmul_lt (a b : Nat) : fmul a b < P := Nat.mod_lt _ P_pos

theorem fred_eq_self {x : Nat} (h : x < P) : fred x = x := Nat.mod_eq_of_lt h

@[simp] theorem turn_e (w : PowWork) : w.turn.e = w.e / 2 := by
  simp [PowWork.turn, Nat.shiftRight_one]

@[simp] theorem turn_b (w : PowWork) : w.turn.b = fmul w.b w.b := rfl

theorem turn_result_lt {w : PowWork} (h : w.result < P) : w.turn.result < P := by
  unfold PowWork.turn
  split
  · exact fmul_lt _ _
  · exact h

theorem loop_of_e_eq_zero (n : Nat) {w : PowWork} (h : w.e = 0) : w.loop n = w.result := by
  cases n <;> simp [PowWork.loop, h]

theorem loop_succ_of_e_ne_zero (n : Nat) {w : PowWork} (h : w.e ≠ 0) : w.loop (n + 1) = w.turn.loop n := by
  simp [PowWork.loop, h]

/-- The value of the loop: `result · b^e`, once there are turns enough for the exponent's bits (R85). -/
theorem loop_eq (n : Nat) (w : PowWork) (he : w.e < 2 ^ n) (hr : w.result < P) :
    w.loop n = w.result * w.b ^ w.e % P := by
  induction n generalizing w with
  | zero =>
    have : w.e = 0 := by simpa using he
    simp [PowWork.loop, this, Nat.mod_eq_of_lt hr]
  | succ n ih =>
    by_cases h0 : w.e = 0
    · simp [PowWork.loop, h0, Nat.mod_eq_of_lt hr]
    · have hlt : w.turn.e < 2 ^ n := by
        rw [turn_e]
        rw [Nat.pow_succ] at he
        omega
      rw [loop_succ_of_e_ne_zero n h0, ih _ hlt (turn_result_lt hr), turn_e, turn_b]
      have hsq : fmul w.b w.b ^ (w.e / 2) % P = w.b ^ (2 * (w.e / 2)) % P := by
        rw [fmul, ← Nat.pow_mod, ← pow_two, ← pow_mul]
      unfold PowWork.turn
      split
      · rename_i hodd
        have hodd' : w.e = 2 * (w.e / 2) + 1 := by omega
        rw [Nat.mul_mod, hsq, fmul, Nat.mod_mod, ← Nat.mul_mod]
        conv_rhs => rw [hodd']
        rw [pow_succ]
        congr 1
        ring
      · rename_i heven
        have heven' : w.e = 2 * (w.e / 2) := by omega
        rw [Nat.mul_mod, hsq, ← Nat.mul_mod, ← heven']

/-- A turn does not change what the loop ends with. -/
theorem finish_turn {w : PowWork} (h : w.e ≠ 0) : w.turn.finish = w.finish := by
  unfold PowWork.finish
  rw [loop_succ_of_e_ne_zero _ h, turn_e]
  by_cases h1 : w.e < 2
  · have : w.e / 2 = 0 := by omega
    have hz : w.turn.e = 0 := by rw [turn_e]; exact this
    rw [loop_of_e_eq_zero _ hz, loop_of_e_eq_zero _ hz]
  · congr 1
    rw [Nat.log2_def w.e, if_pos (by omega)]

theorem finish_lt {w : PowWork} (h : w.result < P) : w.finish < P := by
  unfold PowWork.finish
  rw [loop_eq _ _ Nat.lt_log2_self h]
  exact Nat.mod_lt _ P_pos

theorem modpow_lt (b e : Nat) : modpow b e < P := finish_lt one_lt_P

theorem sbox_lt (x : Nat) : sbox x < P := modpow_lt x ALPHA

end Sys2Proof.Machine
end

