-- ==== Sys2Proof/Laws/Permutation.lean ====
section
/-! SUPPORT. Laws of the permutation engine: rounds compose, their results are field triples, and the engine's stages
lead to the result of the rounds (41_permutation.md R106 to R109, 10_state.md R30). -/

namespace Sys2Proof.Machine

theorem initTriple_inFp (x y : Nat) : (initTriple x y).InFp := ⟨fred_lt x, fred_lt y, P_pos⟩

/-- The mixer with the matrix written out (R106). -/
theorem mix_eq (v : Triple) :
    mix v = ⟨fsum (2 * v.s0) v.s1 v.s2, fsum v.s0 (2 * v.s1) v.s2, fsum v.s0 v.s1 (2 * v.s2)⟩ := by
  simp [mix, mixRow, MIX]

/-- The round types with their boundaries written out (R101). -/
theorem rtype_eq (r : Nat) : rtype r = if r < 2 ∨ 6 ≤ r then .full else .part := rfl

theorem mix_inFp (v : Triple) : (mix v).InFp := ⟨fsum_lt _ _ _, fsum_lt _ _ _, fsum_lt _ _ _⟩

theorem roundFn_inFp (v : Triple) (r : Nat) : (roundFn v r).InFp := mix_inFp _

@[simp] theorem rounds_zero (r : Nat) (v : Triple) : rounds 0 r v = v := rfl

theorem rounds_succ (n r : Nat) (v : Triple) : rounds (n + 1) r v = rounds n (r + 1) (roundFn v r) := rfl

/-- Rounds compose. -/
theorem rounds_add (m n r : Nat) (v : Triple) : rounds (m + n) r v = rounds n (r + m) (rounds m r v) := by
  induction m generalizing r v with
  | zero => simp
  | succ m ih => rw [Nat.succ_add, rounds_succ, ih, rounds_succ]; congr 1; omega

theorem rounds_inFp (n r : Nat) {v : Triple} (h : v.InFp) : (rounds n r v).InFp := by
  induction n generalizing r v with
  | zero => exact h
  | succ n ih => exact ih _ (roundFn_inFp _ _)

theorem permFrom_inFp (k : Nat) {v : Triple} (h : v.InFp) : (permFrom v k).InFp := rounds_inFp _ _ h

/-- One round and then the rest (R109). -/
theorem permFrom_of_lt {k : Nat} (h : k < 8) (v : Triple) : permFrom v k = permFrom (roundFn v k) (k + 1) := by
  unfold permFrom
  rw [show NR - k = (NR - (k + 1)) + 1 by simp only [NR]; omega, rounds_succ]

/-- With a round left the result is in Fp whatever the triple is. -/
theorem permFrom_inFp_of_lt {k : Nat} (h : k < 8) (v : Triple) : (permFrom v k).InFp := by
  rw [permFrom_of_lt h]
  exact permFrom_inFp _ (roundFn_inFp _ _)

theorem permFrom_eight (v : Triple) : permFrom v 8 = v := rfl

/-- A stage more does not change what the engine ends with. -/
theorem roundWork_finish_advance (stop : Nat) (w : RoundWork) : (w.advance stop).finish stop = w.finish stop := by
  obtain ⟨r, stage, v⟩ := w
  unfold RoundWork.advance
  split
  · rename_i h
    simp only at h
    cases stage with
    | before =>
      simp only [RoundWork.finish, h, if_true]
      rw [show stop - r = (stop - (r + 1)) + 1 by omega, rounds_succ]
      rfl
    | constantsAdded => simp only [RoundWork.finish, h, if_true]
    | substituted =>
      simp only [RoundWork.finish, h, if_true]
      split
      · rfl
      · rw [show stop - (r + 1) = 0 by omega, rounds_zero]
  · rfl

/-- From before round `r` the engine ends with the rounds below `stop`. -/
theorem roundWork_finish_start (stop r : Nat) (v : Triple) :
    (RoundWork.start v r).finish stop = rounds (stop - r) r v := by
  unfold RoundWork.start RoundWork.finish
  split
  · rfl
  · rename_i h
    rw [show stop - r = 0 by simp only at h; omega, rounds_zero]

end Sys2Proof.Machine
end

