-- ==== Sys2Proof/Laws/State.lean ====
section
/-! SUPPORT. One lemma per field for each update of the state, so that no later proof unfolds a record update. -/

namespace Sys2Proof.Machine

@[simp] theorem setTriple_in0 (s : State) (v : Triple) : (s.setTriple v).in0 = s.in0 := rfl
@[simp] theorem setTriple_in1 (s : State) (v : Triple) : (s.setTriple v).in1 = s.in1 := rfl
@[simp] theorem setTriple_s0 (s : State) (v : Triple) : (s.setTriple v).s0 = BitVec.ofNat 254 v.s0 := rfl
@[simp] theorem setTriple_s1 (s : State) (v : Triple) : (s.setTriple v).s1 = BitVec.ofNat 254 v.s1 := rfl
@[simp] theorem setTriple_s2 (s : State) (v : Triple) : (s.setTriple v).s2 = BitVec.ofNat 254 v.s2 := rfl
@[simp] theorem setTriple_res (s : State) (v : Triple) : (s.setTriple v).res = s.res := rfl
@[simp] theorem setTriple_busy (s : State) (v : Triple) : (s.setTriple v).busy = s.busy := rfl
@[simp] theorem setTriple_err (s : State) (v : Triple) : (s.setTriple v).err = s.err := rfl
@[simp] theorem setTriple_rcnt (s : State) (v : Triple) : (s.setTriple v).rcnt = s.rcnt := rfl
@[simp] theorem setTriple_inflight (s : State) (v : Triple) : (s.setTriple v).inflight = s.inflight := rfl
@[simp] theorem setTriple_settling (s : State) (v : Triple) : (s.setTriple v).settling = s.settling := rfl
@[simp] theorem setTriple_port (s : State) (v : Triple) : (s.setTriple v).port = s.port := rfl
@[simp] theorem setTriple_answer (s : State) (v : Triple) : (s.setTriple v).answer = s.answer := rfl
@[simp] theorem setTriple_draws (s : State) (v : Triple) : (s.setTriple v).draws = s.draws := rfl
@[simp] theorem setTriple_params (s : State) (v : Triple) : (s.setTriple v).params = s.params := rfl

@[simp] theorem reject_in0 (c : ErrCode) (s : State) : (reject c s).in0 = s.in0 := rfl
@[simp] theorem reject_in1 (c : ErrCode) (s : State) : (reject c s).in1 = s.in1 := rfl
@[simp] theorem reject_s0 (c : ErrCode) (s : State) : (reject c s).s0 = s.s0 := rfl
@[simp] theorem reject_s1 (c : ErrCode) (s : State) : (reject c s).s1 = s.s1 := rfl
@[simp] theorem reject_s2 (c : ErrCode) (s : State) : (reject c s).s2 = s.s2 := rfl
@[simp] theorem reject_res (c : ErrCode) (s : State) : (reject c s).res = s.res := rfl
@[simp] theorem reject_busy (c : ErrCode) (s : State) : (reject c s).busy = s.busy := rfl
@[simp] theorem reject_err (c : ErrCode) (s : State) : (reject c s).err = c := rfl
@[simp] theorem reject_rcnt (c : ErrCode) (s : State) : (reject c s).rcnt = s.rcnt := rfl
@[simp] theorem reject_inflight (c : ErrCode) (s : State) : (reject c s).inflight = s.inflight := rfl
@[simp] theorem reject_settling (c : ErrCode) (s : State) : (reject c s).settling = s.settling := rfl
@[simp] theorem reject_port (c : ErrCode) (s : State) : (reject c s).port = s.port := rfl
@[simp] theorem reject_answer (c : ErrCode) (s : State) : (reject c s).answer = s.answer := rfl
@[simp] theorem reject_draws (c : ErrCode) (s : State) : (reject c s).draws = s.draws := rfl
@[simp] theorem reject_params (c : ErrCode) (s : State) : (reject c s).params = s.params := rfl

@[simp] theorem accept_in0 (n : Nat) (op : Op) (s : State) : (accept n op s).in0 = s.in0 := rfl
@[simp] theorem accept_in1 (n : Nat) (op : Op) (s : State) : (accept n op s).in1 = s.in1 := rfl
@[simp] theorem accept_s0 (n : Nat) (op : Op) (s : State) : (accept n op s).s0 = s.s0 := rfl
@[simp] theorem accept_s1 (n : Nat) (op : Op) (s : State) : (accept n op s).s1 = s.s1 := rfl
@[simp] theorem accept_s2 (n : Nat) (op : Op) (s : State) : (accept n op s).s2 = s.s2 := rfl
@[simp] theorem accept_res (n : Nat) (op : Op) (s : State) : (accept n op s).res = s.res := rfl
@[simp] theorem accept_busy (n : Nat) (op : Op) (s : State) : (accept n op s).busy = true := rfl
@[simp] theorem accept_err (n : Nat) (op : Op) (s : State) : (accept n op s).err = .ok := rfl
@[simp] theorem accept_rcnt (n : Nat) (op : Op) (s : State) : (accept n op s).rcnt = s.rcnt := rfl
@[simp] theorem accept_inflight (n : Nat) (op : Op) (s : State) : (accept n op s).inflight = some ⟨op, n⟩ := rfl
@[simp] theorem accept_settling (n : Nat) (op : Op) (s : State) : (accept n op s).settling = s.settling := rfl
@[simp] theorem accept_port (n : Nat) (op : Op) (s : State) : (accept n op s).port = s.port := rfl
@[simp] theorem accept_answer (n : Nat) (op : Op) (s : State) : (accept n op s).answer = s.answer := rfl
@[simp] theorem accept_draws (n : Nat) (op : Op) (s : State) : (accept n op s).draws = s.draws := rfl
@[simp] theorem accept_params (n : Nat) (op : Op) (s : State) : (accept n op s).params = s.params := rfl

@[simp] theorem retire_in0 (s : State) : (retire s).in0 = s.in0 := rfl
@[simp] theorem retire_in1 (s : State) : (retire s).in1 = s.in1 := rfl
@[simp] theorem retire_s0 (s : State) : (retire s).s0 = s.s0 := rfl
@[simp] theorem retire_s1 (s : State) : (retire s).s1 = s.s1 := rfl
@[simp] theorem retire_s2 (s : State) : (retire s).s2 = s.s2 := rfl
@[simp] theorem retire_res (s : State) : (retire s).res = s.res := rfl
@[simp] theorem retire_busy (s : State) : (retire s).busy = false := rfl
@[simp] theorem retire_err (s : State) : (retire s).err = s.err := rfl
@[simp] theorem retire_rcnt (s : State) : (retire s).rcnt = s.rcnt := rfl
@[simp] theorem retire_inflight (s : State) : (retire s).inflight = none := rfl
@[simp] theorem retire_settling (s : State) : (retire s).settling = s.settling := rfl
@[simp] theorem retire_port (s : State) : (retire s).port = s.port := rfl
@[simp] theorem retire_answer (s : State) : (retire s).answer = s.answer := rfl
@[simp] theorem retire_draws (s : State) : (retire s).draws = s.draws := rfl
@[simp] theorem retire_params (s : State) : (retire s).params = s.params := rfl

@[simp] theorem answerRead_in0 (d : Word) (r : Resp) (s : State) : (answerRead d r s).in0 = s.in0 := rfl
@[simp] theorem answerRead_in1 (d : Word) (r : Resp) (s : State) : (answerRead d r s).in1 = s.in1 := rfl
@[simp] theorem answerRead_s0 (d : Word) (r : Resp) (s : State) : (answerRead d r s).s0 = s.s0 := rfl
@[simp] theorem answerRead_s1 (d : Word) (r : Resp) (s : State) : (answerRead d r s).s1 = s.s1 := rfl
@[simp] theorem answerRead_s2 (d : Word) (r : Resp) (s : State) : (answerRead d r s).s2 = s.s2 := rfl
@[simp] theorem answerRead_res (d : Word) (r : Resp) (s : State) : (answerRead d r s).res = s.res := rfl
@[simp] theorem answerRead_busy (d : Word) (r : Resp) (s : State) : (answerRead d r s).busy = s.busy := rfl
@[simp] theorem answerRead_err (d : Word) (r : Resp) (s : State) : (answerRead d r s).err = s.err := rfl
@[simp] theorem answerRead_rcnt (d : Word) (r : Resp) (s : State) : (answerRead d r s).rcnt = s.rcnt := rfl
@[simp] theorem answerRead_inflight (d : Word) (r : Resp) (s : State) : (answerRead d r s).inflight = s.inflight := rfl
@[simp] theorem answerRead_settling (d : Word) (r : Resp) (s : State) : (answerRead d r s).settling = s.settling := rfl
@[simp] theorem answerRead_port (d : Word) (r : Resp) (s : State) : (answerRead d r s).port = s.port := rfl
@[simp] theorem answerRead_answer (d : Word) (r : Resp) (s : State) : (answerRead d r s).answer = some (.read d r) := rfl
@[simp] theorem answerRead_draws (d : Word) (r : Resp) (s : State) : (answerRead d r s).draws = s.draws := rfl
@[simp] theorem answerRead_params (d : Word) (r : Resp) (s : State) : (answerRead d r s).params = s.params := rfl

@[simp] theorem answerWrite_in0 (r : Resp) (s : State) : (answerWrite r s).in0 = s.in0 := rfl
@[simp] theorem answerWrite_in1 (r : Resp) (s : State) : (answerWrite r s).in1 = s.in1 := rfl
@[simp] theorem answerWrite_s0 (r : Resp) (s : State) : (answerWrite r s).s0 = s.s0 := rfl
@[simp] theorem answerWrite_s1 (r : Resp) (s : State) : (answerWrite r s).s1 = s.s1 := rfl
@[simp] theorem answerWrite_s2 (r : Resp) (s : State) : (answerWrite r s).s2 = s.s2 := rfl
@[simp] theorem answerWrite_res (r : Resp) (s : State) : (answerWrite r s).res = s.res := rfl
@[simp] theorem answerWrite_busy (r : Resp) (s : State) : (answerWrite r s).busy = s.busy := rfl
@[simp] theorem answerWrite_err (r : Resp) (s : State) : (answerWrite r s).err = s.err := rfl
@[simp] theorem answerWrite_rcnt (r : Resp) (s : State) : (answerWrite r s).rcnt = s.rcnt := rfl
@[simp] theorem answerWrite_inflight (r : Resp) (s : State) : (answerWrite r s).inflight = s.inflight := rfl
@[simp] theorem answerWrite_settling (r : Resp) (s : State) : (answerWrite r s).settling = s.settling := rfl
@[simp] theorem answerWrite_port (r : Resp) (s : State) : (answerWrite r s).port = s.port := rfl
@[simp] theorem answerWrite_answer (r : Resp) (s : State) : (answerWrite r s).answer = some (.write r) := rfl
@[simp] theorem answerWrite_draws (r : Resp) (s : State) : (answerWrite r s).draws = s.draws := rfl
@[simp] theorem answerWrite_params (r : Resp) (s : State) : (answerWrite r s).params = s.params := rfl

@[simp] theorem assertReset_in0 (s : State) : (assertReset s).in0 = State.reset.in0 := rfl
@[simp] theorem assertReset_in1 (s : State) : (assertReset s).in1 = State.reset.in1 := rfl
@[simp] theorem assertReset_s0 (s : State) : (assertReset s).s0 = State.reset.s0 := rfl
@[simp] theorem assertReset_s1 (s : State) : (assertReset s).s1 = State.reset.s1 := rfl
@[simp] theorem assertReset_s2 (s : State) : (assertReset s).s2 = State.reset.s2 := rfl
@[simp] theorem assertReset_res (s : State) : (assertReset s).res = State.reset.res := rfl
@[simp] theorem assertReset_busy (s : State) : (assertReset s).busy = State.reset.busy := rfl
@[simp] theorem assertReset_err (s : State) : (assertReset s).err = State.reset.err := rfl
@[simp] theorem assertReset_rcnt (s : State) : (assertReset s).rcnt = State.reset.rcnt := rfl
@[simp] theorem assertReset_inflight (s : State) : (assertReset s).inflight = State.reset.inflight := rfl
@[simp] theorem assertReset_settling (s : State) : (assertReset s).settling = State.reset.settling := rfl
@[simp] theorem assertReset_port (s : State) : (assertReset s).port = s.port := rfl
@[simp] theorem assertReset_answer (s : State) : (assertReset s).answer = State.reset.answer := rfl
@[simp] theorem assertReset_draws (s : State) : (assertReset s).draws = s.draws := rfl
@[simp] theorem assertReset_params (s : State) : (assertReset s).params = s.params := rfl

@[simp] theorem retire_triple (s : State) : (retire s).triple = s.triple := rfl

@[simp] theorem reject_triple (c : ErrCode) (s : State) : (reject c s).triple = s.triple := rfl

@[simp] theorem accept_triple (n : Nat) (op : Op) (s : State) : (accept n op s).triple = s.triple := rfl

@[simp] theorem answerRead_triple (d : Word) (r : Resp) (s : State) : (answerRead d r s).triple = s.triple := rfl

@[simp] theorem answerWrite_triple (r : Resp) (s : State) : (answerWrite r s).triple = s.triple := rfl

end Sys2Proof.Machine
end

