-- ==== Sys2Proof/Laws/Ops.lean ====
section
/-! SUPPORT. One law for each shared operation: everything it can do, said once. -/

namespace Sys2Proof.Machine

/-! Register words (20_memory.md R42) -/

theorem regWord_toNat (v : Reg256) (k : Fin 8) : (regWord v k).toNat = v.toNat / 2 ^ (32 * k.val) % 2 ^ 32 := by
  simp [regWord, BitVec.extractLsb'_toNat, Nat.shiftRight_eq_div_pow]

/-- Writing a word replaces it and leaves the other seven alone (R42, R45). -/
theorem regWord_setRegWord (v : Reg256) (k j : Fin 8) (w : Word) :
    regWord (setRegWord v k w) j = if j = k then w else regWord v j := by
  apply BitVec.eq_of_getLsbD_eq
  intro i hi
  have hk := k.isLt
  have hj := j.isLt
  split
  · rename_i h
    subst h
    simp only [regWord, setRegWord, BitVec.getLsbD_extractLsb', BitVec.getLsbD_or, BitVec.getLsbD_and,
      BitVec.getLsbD_not, BitVec.getLsbD_shiftLeft, BitVec.getLsbD_setWidth, BitVec.getLsbD_allOnes]
    have h1 : ¬ (32 * j.val + i < 32 * j.val) := by omega
    have h2 : 32 * j.val + i - 32 * j.val = i := by omega
    have h3 : 32 * j.val + i < 256 := by omega
    have h4 : i < 256 := by omega
    simp [h1, h2, h3, h4, hi]
  · rename_i h
    have hne : j.val ≠ k.val := fun e => h (Fin.ext e)
    simp only [regWord, setRegWord, BitVec.getLsbD_extractLsb', BitVec.getLsbD_or, BitVec.getLsbD_and,
      BitVec.getLsbD_not, BitVec.getLsbD_shiftLeft, BitVec.getLsbD_setWidth, BitVec.getLsbD_allOnes]
    have h3 : 32 * j.val + i < 256 := by omega
    by_cases hlt : 32 * j.val + i < 32 * k.val
    · simp [hlt, h3, hi]
    · have h5 : ¬ (32 * j.val + i - 32 * k.val < 32) := by omega
      have h6 : w.getLsbD (32 * j.val + i - 32 * k.val) = false := BitVec.getLsbD_of_ge _ _ (by omega)
      simp [h3, h5, h6, hi]

/-! The address map (20_memory.md R41) -/

theorem targetOf_word (b : Bank) (k : Fin 8) : targetOf (bankOffset b + 4 * k.val) = some (.word b k) := by
  revert k; cases b <;> decide

theorem targetOf_cmd : targetOf 0xC0 = some .cmd := rfl

theorem targetOf_status : targetOf 0xC4 = some .status := rfl

theorem targetOf_unmapped {off : Nat} (h : 0xC8 ≤ off) : targetOf off = none := by
  unfold targetOf
  simp only [show ¬ off < 0x20 by omega, show ¬ off < 0x40 by omega, show ¬ off < 0x60 by omega,
    show ¬ off < 0x80 by omega, show ¬ off < 0xA0 by omega, show ¬ off < 0xC0 by omega, show ¬ off < 0xC4 by omega,
    show ¬ off < 0xC8 by omega, if_false]

/-- What an aligned offset of the window names, as a word of a register, CMD, STATUS or nothing. -/
theorem targetOf_cases (off : Nat) (h4 : off % 4 = 0) :
    (∃ (b : Bank) (k : Fin 8), off = bankOffset b + 4 * k.val ∧ targetOf off = some (.word b k)) ∨
      (off = 0xC0 ∧ targetOf off = some .cmd) ∨ (off = 0xC4 ∧ targetOf off = some .status) ∨
      (0xC8 ≤ off ∧ targetOf off = none) := by
  by_cases h : 0xC8 ≤ off
  · exact .inr (.inr (.inr ⟨h, targetOf_unmapped h⟩))
  · by_cases h1 : off = 0xC4
    · subst h1; exact .inr (.inr (.inl ⟨rfl, rfl⟩))
    · by_cases h2 : off = 0xC0
      · subst h2; exact .inr (.inl ⟨rfl, rfl⟩)
      · left
        have hlt : off < 0xC0 := by omega
        have key : ∀ n : Fin 48, ∃ (b : Bank) (k : Fin 8), 4 * n.val = bankOffset b + 4 * k.val := by
          intro n
          have hn := n.isLt
          have hk : n.val % 8 < 8 := Nat.mod_lt _ (by omega)
          have : n.val / 8 = 0 ∨ n.val / 8 = 1 ∨ n.val / 8 = 2 ∨ n.val / 8 = 3 ∨ n.val / 8 = 4 ∨ n.val / 8 = 5 := by
            omega
          rcases this with h | h | h | h | h | h
          · exact ⟨.in0, ⟨n.val % 8, hk⟩, by simp only [bankOffset]; omega⟩
          · exact ⟨.in1, ⟨n.val % 8, hk⟩, by simp only [bankOffset]; omega⟩
          · exact ⟨.s0, ⟨n.val % 8, hk⟩, by simp only [bankOffset]; omega⟩
          · exact ⟨.s1, ⟨n.val % 8, hk⟩, by simp only [bankOffset]; omega⟩
          · exact ⟨.s2, ⟨n.val % 8, hk⟩, by simp only [bankOffset]; omega⟩
          · exact ⟨.res, ⟨n.val % 8, hk⟩, by simp only [bankOffset]; omega⟩
        obtain ⟨b, k, hbk⟩ := key ⟨off / 4, by omega⟩
        simp only at hbk
        have hoff : off = bankOffset b + 4 * k.val := by omega
        exact ⟨b, k, hoff, hoff ▸ targetOf_word b k⟩

theorem busSelect_outside {base addr : Nat} (size : Nat) (h : ¬ (base ≤ addr ∧ addr < base + 0x100)) :
    busSelect base addr size = .outside := by
  unfold busSelect
  rw [if_pos (by omega)]

/-- Inside the window only the offset counts. -/
theorem busSelect_offset (base size : Nat) {off : Nat} (h : off < 0x100) :
    busSelect base (base + off) size =
      if size ≠ 4 ∨ off % 4 ≠ 0 then .busError else (targetOf off).elim .busError .target := by
  unfold busSelect
  rw [if_neg (by omega), Nat.add_sub_cancel_left]
  cases targetOf off <;> rfl

theorem bankOffset_add_lt (b : Bank) (k : Fin 8) : bankOffset b + 4 * k.val < 0xC0 := by
  revert k; cases b <;> decide

theorem busSelect_word (base : Nat) (b : Bank) (k : Fin 8) :
    busSelect base (base + bankOffset b + 4 * k.val) 4 = .target (.word b k) := by
  have hlt := bankOffset_add_lt b k
  have h4 : (bankOffset b + 4 * k.val) % 4 = 0 := by revert k; cases b <;> decide
  rw [Nat.add_assoc, busSelect_offset _ _ (by omega), targetOf_word]
  simp [h4]

theorem busSelect_cmd (base : Nat) : busSelect base (base + 0xC0) 4 = .target .cmd := by
  rw [busSelect_offset _ _ (by omega)]; rfl

theorem busSelect_status (base : Nat) : busSelect base (base + 0xC4) 4 = .target .status := by
  rw [busSelect_offset _ _ (by omega)]; rfl

/-! Deciding on a command (60_exceptions.md R151) -/

/-- RCNT with its bound written out (10_state.md R26). -/
theorem rcnt_le_eight (s : State) : s.rcnt.val ≤ 8 := Nat.le_of_lt_succ s.rcnt.isLt

/-- Everything a command's `exec` can do: rejected as BUSY, rejected as SEQ, or accepted with a faithful record. -/
theorem exec_cases (i : Instr) (s : State) :
    (s.busy = true ∧ exec i s = .next (reject .busy s)) ∨
    (s.busy = false ∧ (i = .round ∨ i = .permute) ∧ s.rcnt = 8 ∧ exec i s = .next (reject .seq s)) ∨
    (s.busy = false ∧ ¬ ((i = .round ∨ i = .permute) ∧ s.rcnt = 8) ∧
      ∃ op n, op.instr = i ∧ n = latency i s ∧ 1 ≤ n ∧ op.Faithful s ∧ exec i s = .next (accept n op s)) := by
  by_cases hb : s.busy = true
  · left
    refine ⟨hb, ?_⟩
    cases i <;> simp [exec, execNop, execInit, execRound, execPermute, execHash, execModpow, whenIdle, hb]
  · have hb' : s.busy = false := by simpa using hb
    right
    have seq8 : s.rcnt.val < 8 ∨ s.rcnt = 8 := by
      rcases Nat.lt_or_ge s.rcnt.val 8 with h | h
      · exact .inl h
      · right; apply Fin.ext; have := rcnt_le_eight s; change s.rcnt.val = 8; omega
    cases i with
    | nop => exact .inr ⟨hb', by simp, .nop, _, rfl, rfl, by simp [latency, latNop], trivial,
        by simp [exec, execNop, whenIdle, hb', latency]⟩
    | init => exact .inr ⟨hb', by simp, captureInit s, _, rfl, rfl, by simp [latency, latInit], ⟨rfl, rfl⟩,
        by simp [exec, execInit, whenIdle, hb', latency]⟩
    | hash =>
      refine .inr ⟨hb', by simp, captureHash s, _, rfl, rfl, by simp [latency, latHash], ⟨rfl, rfl, ?_⟩,
        by simp [exec, execHash, whenIdle, hb', latency]⟩
      rw [roundWork_finish_start]; rfl
    | modpow => exact .inr ⟨hb', by simp, captureModpow s, _, rfl, rfl, by simp [latency, latModpow], ⟨rfl, rfl, rfl⟩,
        by simp [exec, execModpow, whenIdle, hb', latency]⟩
    | round =>
      rcases seq8 with h | h
      · refine .inr ⟨hb', ?_, captureRound ⟨s.rcnt.val, h⟩ s, _, rfl, rfl, by simp [latency, latRound],
          ⟨rfl, Fin.ext rfl, ?_⟩, by simp [exec, execRound, whenIdle, hb', withRoundLeft, h, latency]⟩
        · rintro ⟨-, h8⟩; rw [h8] at h; exact absurd h (by decide)
        · rw [roundWork_finish_start]; simp [rounds_succ]
      · exact .inl ⟨hb', by simp, h, by simp [exec, execRound, whenIdle, hb', withRoundLeft, h]⟩
    | permute =>
      rcases seq8 with h | h
      · refine .inr ⟨hb', ?_, capturePermute ⟨s.rcnt.val, h⟩ s, _, rfl, rfl, ?_,
          ⟨rfl, Fin.ext rfl, ?_⟩, by simp [exec, execPermute, whenIdle, hb', withRoundLeft, h, latency]⟩
        · rintro ⟨-, h8⟩; rw [h8] at h; exact absurd h (by decide)
        · simp [latency, h, latPermute]
        · rw [roundWork_finish_start]; rfl
      · exact .inl ⟨hb', by simp, h, by simp [exec, execPermute, whenIdle, hb', withRoundLeft, h]⟩

/-- A submitted word changes ERR, BUSY and the in-flight record only. -/
theorem submit_next (w : Word) (s : State) :
    ∃ t, submit w s = .next t ∧ ((∃ c, t = reject c s) ∨
      ∃ i op n, s.busy = false ∧ decode w = .ok i ∧ op.instr = i ∧ 1 ≤ n ∧ op.Faithful s ∧ t = accept n op s) := by
  unfold submit
  cases hd : decode w with
  | error e => exact ⟨_, rfl, .inl ⟨_, rfl⟩⟩
  | ok i =>
    rcases exec_cases i s with ⟨_, h⟩ | ⟨_, _, _, h⟩ | ⟨hb, _, op, n, hi, _, hn, hf, h⟩
    · exact ⟨_, h, .inl ⟨_, rfl⟩⟩
    · exact ⟨_, h, .inl ⟨_, rfl⟩⟩
    · exact ⟨_, h, .inr ⟨i, op, n, hb, rfl, hi, hn, hf, rfl⟩⟩

/-! The engine (70_reset_and_hazards.md R176) -/

/-- Everything the engine's part of a cycle can do. -/
theorem tick_cases (s : State) :
    (s.inflight = none ∧ tick s = s) ∨
    (∃ f, s.inflight = some f ∧ f.remaining ≤ 1 ∧ tick s = complete f.op s) ∨
    (∃ f, s.inflight = some f ∧ 1 < f.remaining ∧
      tick s = { s with inflight := some ⟨f.op.advance, f.remaining - 1⟩ }) := by
  unfold tick
  cases h : s.inflight with
  | none => exact .inl ⟨rfl, rfl⟩
  | some f =>
    right
    by_cases hr : f.remaining ≤ 1
    · exact .inl ⟨f, rfl, hr, by simp [hr]⟩
    · exact .inr ⟨f, rfl, by omega, by simp [hr]⟩

/-- A completion changes data registers, RCNT, BUSY and the record only. -/
theorem complete_frame (op : Op) (s : State) :
    let t := complete op s
    t = { s with s0 := t.s0, s1 := t.s1, s2 := t.s2, res := t.res, rcnt := t.rcnt, busy := false, inflight := none } := by
  cases op <;> rfl

theorem toNat_ofNat_of_lt_P {x : Nat} (h : x < P) : (BitVec.ofNat 254 x).toNat = x := by
  rw [BitVec.toNat_ofNat, Nat.mod_eq_of_lt (Nat.lt_trans h P_lt_two_pow)]

theorem triple_setTriple (s : State) {v : Triple} (h : v.InFp) : (s.setTriple v).triple = v := by
  obtain ⟨h0, h1, h2⟩ := h
  simp only [State.triple, setTriple_s0, setTriple_s1, setTriple_s2, toNat_ofNat_of_lt_P h0, toNat_ofNat_of_lt_P h1,
    toNat_ofNat_of_lt_P h2]

/-- The completion of a faithful record gives the command's result (R120 to R124, R90). -/
theorem complete_result {op : Op} {s : State} (hf : op.Faithful s) :
    op.Result s (complete op s) := by
  cases op with
  | nop => exact ⟨rfl, rfl, rfl, rfl, rfl, rfl, rfl⟩
  | init x y =>
    exact ⟨rfl, rfl, rfl, rfl, triple_setTriple s (initTriple_inFp _ _), rfl, rfl⟩
  | round v k w =>
    obtain ⟨rfl, -, hw⟩ := hf
    refine ⟨rfl, rfl, rfl, rfl, ?_, rfl, rfl⟩
    rw [← hw]
    exact triple_setTriple s (hw ▸ roundFn_inFp _ _)
  | permute v k w =>
    obtain ⟨rfl, -, hw⟩ := hf
    refine ⟨rfl, rfl, rfl, rfl, ?_, rfl, rfl⟩
    rw [← hw]
    exact triple_setTriple s (hw ▸ permFrom_inFp_of_lt k.isLt _)
  | hash x y w =>
    obtain ⟨-, -, hw⟩ := hf
    refine ⟨rfl, rfl, rfl, rfl, ?_, rfl, rfl⟩
    rw [← hw]
    exact triple_setTriple s (hw ▸ permFrom_inFp _ (initTriple_inFp _ _))
  | modpow b e w =>
    obtain ⟨-, -, hw⟩ := hf
    refine ⟨rfl, rfl, rfl, rfl, rfl, rfl, ?_⟩
    rw [← hw]
    exact toNat_ofNat_of_lt_P (hw ▸ modpow_lt _ _)

end Sys2Proof.Machine
end

