-- ==== Sys2Proof/Laws/Step.lean ====
section
/-! SUPPORT. What one step can do, said once: a reset cycle, a cycle without a transaction, or a transaction performed
after the engine's part; and what a transaction can do. -/

namespace Sys2Proof.Machine

theorem nextCycle_nil {s : State} (h : s.port = []) : nextCycle s = (⟨true, none⟩, s) := by
  simp [nextCycle, h]

theorem nextCycle_cons {s : State} {c : Cycle} {rest : List Cycle} (h : s.port = c :: rest) :
    nextCycle s = (c, { s with port := rest }) := by
  simp [nextCycle, h]

/-- The state the cycle starts from is `s` but for the inputs still to come. -/
theorem nextCycle_snd (s : State) : ∃ rest, (nextCycle s).2 = { s with port := rest } := by
  cases h : s.port with
  | nil => exact ⟨[], by rw [nextCycle_nil h, ← h]⟩
  | cons c rest => exact ⟨rest, by rw [nextCycle_cons h]⟩

/-! What the engine's part of a cycle leaves alone -/

@[simp] theorem tick_in0 (s : State) : (tick s).in0 = s.in0 := by
  rcases tick_cases s with ⟨_, h⟩ | ⟨f, _, _, h⟩ | ⟨f, _, _, h⟩ <;> rw [h]
  rw [complete_frame]

@[simp] theorem tick_in1 (s : State) : (tick s).in1 = s.in1 := by
  rcases tick_cases s with ⟨_, h⟩ | ⟨f, _, _, h⟩ | ⟨f, _, _, h⟩ <;> rw [h]
  rw [complete_frame]

@[simp] theorem tick_err (s : State) : (tick s).err = s.err := by
  rcases tick_cases s with ⟨_, h⟩ | ⟨f, _, _, h⟩ | ⟨f, _, _, h⟩ <;> rw [h]
  rw [complete_frame]

@[simp] theorem tick_settling (s : State) : (tick s).settling = s.settling := by
  rcases tick_cases s with ⟨_, h⟩ | ⟨f, _, _, h⟩ | ⟨f, _, _, h⟩ <;> rw [h]
  rw [complete_frame]

@[simp] theorem tick_port (s : State) : (tick s).port = s.port := by
  rcases tick_cases s with ⟨_, h⟩ | ⟨f, _, _, h⟩ | ⟨f, _, _, h⟩ <;> rw [h]
  rw [complete_frame]

@[simp] theorem tick_answer (s : State) : (tick s).answer = s.answer := by
  rcases tick_cases s with ⟨_, h⟩ | ⟨f, _, _, h⟩ | ⟨f, _, _, h⟩ <;> rw [h]
  rw [complete_frame]

@[simp] theorem tick_draws (s : State) : (tick s).draws = s.draws := by
  rcases tick_cases s with ⟨_, h⟩ | ⟨f, _, _, h⟩ | ⟨f, _, _, h⟩ <;> rw [h]
  rw [complete_frame]

@[simp] theorem tick_params (s : State) : (tick s).params = s.params := by
  rcases tick_cases s with ⟨_, h⟩ | ⟨f, _, _, h⟩ | ⟨f, _, _, h⟩ <;> rw [h]
  rw [complete_frame]

@[simp] theorem tick_base (s : State) : (tick s).base = s.base := by simp [State.base]

/-- The engine's part reads none of the inputs still to come. -/
theorem tick_with_port (s : State) (rest : List Cycle) :
    tick { s with port := rest } = { tick s with port := rest } := by
  rcases hs : s.inflight with _ | f
  · simp [tick, hs]
  · simp only [tick, hs]
    split
    · cases f.op <;> rfl
    · rfl

@[simp] theorem ready_base (s : State) (rest : List Cycle) : (ready s rest).base = s.base := by
  simp [ready, State.base]

@[simp] theorem ready_in0 (s : State) (rest : List Cycle) : (ready s rest).in0 = s.in0 := by simp [ready]

@[simp] theorem ready_in1 (s : State) (rest : List Cycle) : (ready s rest).in1 = s.in1 := by simp [ready]

@[simp] theorem ready_err (s : State) (rest : List Cycle) : (ready s rest).err = s.err := by simp [ready]

@[simp] theorem ready_settling (s : State) (rest : List Cycle) : (ready s rest).settling = s.settling := by simp [ready]

@[simp] theorem ready_port (s : State) (rest : List Cycle) : (ready s rest).port = rest := by simp [ready]

@[simp] theorem ready_answer (s : State) (rest : List Cycle) : (ready s rest).answer = s.answer := by simp [ready]

@[simp] theorem ready_draws (s : State) (rest : List Cycle) : (ready s rest).draws = s.draws := by simp [ready]

@[simp] theorem ready_params (s : State) (rest : List Cycle) : (ready s rest).params = s.params := by simp [ready]

/-! The step -/

/-- A transaction of a cycle out of reset is performed on the state the engine has had its part in. -/
theorem step_of_transaction {s : State} {t : Transaction} {rest : List Cycle} (h : NextTransaction s t rest) :
    step s = perform t (ready s rest) := by
  obtain ⟨hp, hs⟩ := h
  simp [step, nextCycle_cons hp, cycle, hs, ready]

/-- Everything a step that makes a next state can be. -/
theorem step_cases {s t : State} (h : step s = .next t) :
    ((nextCycle s).1.rstN = false ∧ t = assertReset (nextCycle s).2) ∨
    ((nextCycle s).1 = ⟨true, none⟩ ∧ t = { tick (nextCycle s).2 with settling := false, answer := none }) ∨
    (∃ x, (nextCycle s).1 = ⟨true, some x⟩ ∧ s.settling = false ∧ perform x (tick (nextCycle s).2) = .next t) := by
  obtain ⟨rest, hrest⟩ := nextCycle_snd s
  unfold step cycle at h
  rcases hc : (nextCycle s).1 with ⟨_ | _, _ | x⟩
  · left; simp only [hc] at h; exact ⟨rfl, by injection h with h; exact h.symm⟩
  · simp only [hc] at h; cases h
  · right; left; simp only [hc] at h; exact ⟨rfl, by injection h with h; exact h.symm⟩
  · right; right
    simp only [hc] at h
    split at h
    · cases h
    · rename_i hset
      refine ⟨x, rfl, ?_, h⟩
      rw [hrest] at hset
      simpa using hset

/-- A run goes on from the state its first step makes. -/
theorem runFor_succ_of_next {n : Nat} {s t : State} (h : step s = .next t) : runFor (n + 1) s = runFor n t := by
  simp only [runFor, h]

/-- A run that makes a next state took a first step that made one. -/
theorem runFor_succ_next {n : Nat} {s u : State} (h : runFor (n + 1) s = .next u) :
    ∃ t, step s = .next t ∧ runFor n t = .next u := by
  cases hs : step s with
  | next t => exact ⟨t, rfl, by rw [← runFor_succ_of_next hs]; exact h⟩
  | fault r => simp only [runFor, hs] at h; cases h
  | refused r => simp only [runFor, hs] at h; cases h

/-- A read changes the answer and the draw counter only (20_memory.md R44, R49). -/
theorem readTarget_frame (x : Target) (s : State) :
    let t := readTarget x s
    t = { s with answer := t.answer, draws := t.draws } := by
  cases x with
  | word b k => simp only [readTarget]; split <;> rfl
  | cmd => rfl
  | status => simp only [readTarget]; split <;> rfl

theorem writeIn_idle {written s : State} (h : s.busy = false) : writeIn written s = .next written := by
  simp [writeIn, h]

theorem writeIn_busy {written s : State} (h : s.busy = true) : writeIn written s = .next (reject .busy s) := by
  simp [writeIn, h]

/-- Everything a transaction that makes a next state can do: a read or a bus error, an IN word written or refused while
busy, or a word submitted to CMD. -/
theorem perform_cases {x : Transaction} {s t : State} (h : perform x s = .next t) :
    (t = { s with answer := t.answer, draws := t.draws }) ∨
    (∃ (addr : Nat) (k : Fin 8) (w : Word), x = .write addr 4 w ∧
      (busSelect s.base addr 4 = .target (.word .in0 k) ∨ busSelect s.base addr 4 = .target (.word .in1 k)) ∧
      s.busy = true ∧ t = reject .busy (answerWrite .okay s)) ∨
    (∃ (addr : Nat) (k : Fin 8) (w : Word), x = .write addr 4 w ∧ busSelect s.base addr 4 = .target (.word .in0 k) ∧
      s.busy = false ∧ t = { answerWrite .okay s with in0 := setRegWord s.in0 k w }) ∨
    (∃ (addr : Nat) (k : Fin 8) (w : Word), x = .write addr 4 w ∧ busSelect s.base addr 4 = .target (.word .in1 k) ∧
      s.busy = false ∧ t = { answerWrite .okay s with in1 := setRegWord s.in1 k w }) ∨
    (∃ (addr : Nat) (w : Word), x = .write addr 4 w ∧ busSelect s.base addr 4 = .target .cmd ∧
      submit w (answerWrite .okay s) = .next t) := by
  cases x with
  | read addr size =>
    left
    unfold perform at h
    simp only at h
    split at h
    · cases h
    · injection h with h; subst h; rfl
    · injection h with h; subst h; exact readTarget_frame _ _
  | write addr size w =>
    unfold perform at h
    simp only at h
    split at h
    · cases h
    · left; injection h with h; subst h; rfl
    · rename_i y hy
      have hsize : size = 4 := by
        by_contra hne
        unfold busSelect at hy
        split at hy
        · cases hy
        · simp [hne] at hy
      subst hsize
      unfold writeTarget at h
      split at h
      · rename_i k
        unfold writeIn at h
        injection h with h
        by_cases hb : s.busy = true
        · right; left
          exact ⟨addr, k, w, rfl, .inl hy, hb, by rw [← h]; simp [hb]⟩
        · right; right; left
          exact ⟨addr, k, w, rfl, hy, by simpa using hb, by rw [← h]; simp [hb]⟩
      · rename_i k
        unfold writeIn at h
        injection h with h
        by_cases hb : s.busy = true
        · right; left
          exact ⟨addr, k, w, rfl, .inr hy, hb, by rw [← h]; simp [hb]⟩
        · right; right; right; left
          exact ⟨addr, k, w, rfl, hy, by simpa using hb, by rw [← h]; simp [hb]⟩
      · left; injection h with h; subst h; rfl
      · left; injection h with h; subst h; rfl
      · left; injection h with h; subst h; rfl
      · left; injection h with h; subst h; rfl
      · exact .inr (.inr (.inr (.inr ⟨addr, w, rfl, hy, h⟩)))
      · left; injection h with h; subst h; rfl

end Sys2Proof.Machine
end

