-- ==== Sys2Proof/Laws/HostForms.lean ====
section
/-! SUPPORT. What the host's transaction does when every other agent only reads (20_memory.md R49, R52): the engine has
its part of some cycles, and then the transaction is performed; the reads change nothing but the answer and the draw
counter. -/

namespace Sys2Proof.Machine

/-- The state with another answer, draw counter and list of inputs: what reads change. -/
def State.withOutside (s : State) (a : Option Answer) (d : Nat) (rest : List Cycle) : State :=
  { s with answer := a, draws := d, port := rest }

/-- The engine reads nothing of that. -/
theorem tick_withOutside (s : State) (a : Option Answer) (d : Nat) (rest : List Cycle) :
    tick (s.withOutside a d rest) = (tick s).withOutside a d rest := by
  rcases hs : s.inflight with _ | f
  · simp [tick, State.withOutside, hs]
  · simp only [tick, State.withOutside, hs]
    split
    · cases f.op <;> rfl
    · rfl

/-- The engine's part of `k` cycles, likewise. -/
theorem iterate_tick_withOutside (k : Nat) (s : State) (a : Option Answer) (d : Nat) (rest : List Cycle) :
    tick^[k] (s.withOutside a d rest) = (tick^[k] s).withOutside a d rest := by
  induction k generalizing s with
  | zero => rfl
  | succ k ih => rw [Function.iterate_succ_apply, Function.iterate_succ_apply, tick_withOutside, ih]

/-- Without a command in flight the engine does nothing, however many cycles. -/
theorem iterate_tick_idle (k : Nat) {s : State} (h : s.inflight = none) : tick^[k] s = s := by
  induction k with
  | zero => rfl
  | succ k ih => rw [Function.iterate_succ_apply, show tick s = s by simp [tick, h], ih]

/-- A read inside the window makes a next state and changes the answer and the draw counter only. -/
theorem perform_read {s : State} {addr : Nat} (size : Nat) (h : InWindow s addr) :
    ∃ a d, perform (.read addr size) s = .next { s with answer := a, draws := d } := by
  have hout : busSelect s.base addr size ≠ .outside := by
    obtain ⟨h1, h2⟩ := h
    unfold busSelect
    rw [if_neg (by omega)]
    split
    · exact fun h => nomatch h
    · cases targetOf (addr - s.base) <;> exact fun h => nomatch h
  simp only [perform]
  split
  · rename_i ho; exact absurd ho hout
  · exact ⟨_, _, rfl⟩
  · rename_i x _; exact ⟨_, _, congrArg _ (readTarget_frame x s)⟩

/-- A cycle out of reset in which another agent reads a register, or does nothing. -/
theorem step_onlyReads {s : State} (c : Cycle) (rest : List Cycle) (hset : s.settling = false) (hr : c.rstN = true)
    (hc : ∀ t, c.txn = some t → ∃ addr size, t = .read addr size ∧ InWindow s addr) :
    ∃ a d, step { s with port := c :: rest } = .next ((tick s).withOutside a d rest) := by
  obtain ⟨rst, txn⟩ := c
  simp only at hr hc
  subst hr
  cases txn with
  | none =>
    refine ⟨none, (tick s).draws, ?_⟩
    simp only [step, nextCycle, cycle, tick_with_port, State.withOutside]
    have : (tick s).settling = false := by rw [tick_settling, hset]
    rw [← this]
  | some t =>
    obtain ⟨addr, size, rfl, hw⟩ := hc t rfl
    have hn : NextTransaction { s with port := ⟨true, some (.read addr size)⟩ :: rest } (.read addr size) rest :=
      ⟨rfl, hset⟩
    rw [step_of_transaction hn]
    have hw' : InWindow (ready { s with port := ⟨true, some (.read addr size)⟩ :: rest } rest) addr := by
      unfold InWindow at hw ⊢
      rw [ready_base]
      exact hw
    obtain ⟨a, d, h⟩ := perform_read size hw'
    refine ⟨a, d, ?_⟩
    rw [h]
    exact congrArg (fun u : State => Host.Outcome.next { u with answer := a, draws := d }) (tick_with_port s rest)

/-- Everything the host's transaction does when the other agents only read: the engine has its part of `k + 1` cycles,
some of the listed cycles are used up, and the transaction is performed. -/
theorem issue_onlyReads (t : Transaction) {s : State} (hset : s.settling = false) (h : OnlyReads s) :
    ∃ (k : Nat) (a : Option Answer) (d : Nat) (used rest : List Cycle), s.port = used ++ rest ∧
      issue t s = perform t ((tick^[k + 1] s).withOutside a d rest) := by
  have own : ∀ (u : State) (rest : List Cycle), u.settling = false →
      step { u with port := ⟨true, some t⟩ :: rest } =
        perform t ((tick u).withOutside u.answer u.draws rest) := by
    intro u rest hu
    rw [step_of_transaction (show NextTransaction { u with port := ⟨true, some t⟩ :: rest } t rest from ⟨rfl, hu⟩)]
    congr 1
    have := tick_withOutside u u.answer u.draws rest
    exact this
  have key : ∀ (l : List Cycle) (u : State), u.settling = false → u.port = l → OnlyReads u →
      ∃ (k : Nat) (a : Option Answer) (d : Nat) (used rest : List Cycle), l = used ++ rest ∧
        issueIn t l u = perform t ((tick^[k + 1] u).withOutside a d rest) := by
    intro l
    induction l with
    | nil => exact fun u hu _ _ => ⟨0, _, _, [], [], rfl, own u [] hu⟩
    | cons c l ih =>
      intro u hu hp ho
      rw [issueIn]
      split
      · exact ⟨0, _, _, [c], l, rfl, own u l hu⟩
      · obtain ⟨hr, hc⟩ := ho c (by rw [hp]; exact List.mem_cons_self)
        obtain ⟨a, d, hstep⟩ := step_onlyReads c l hu hr hc
        simp only [hstep]
        have hbase : ((tick u).withOutside a d l).base = u.base := tick_base u
        obtain ⟨k, a', d', used, rest, hl, hi⟩ := ih ((tick u).withOutside a d l) (by
          show (tick u).settling = false; rw [tick_settling, hu]) rfl (by
          intro c' hc'
          obtain ⟨h1, h2⟩ := ho c' (by rw [hp]; exact List.mem_cons_of_mem _ hc')
          refine ⟨h1, fun t' ht' => ?_⟩
          obtain ⟨addr, size, e, hw⟩ := h2 t' ht'
          exact ⟨addr, size, e, by unfold InWindow at hw ⊢; rw [hbase]; exact hw⟩)
        refine ⟨k + 1, a', d', c :: used, rest, by rw [hl]; rfl, ?_⟩
        rw [hi, iterate_tick_withOutside, Function.iterate_succ_apply tick (k + 1) u]
        rfl
  exact key s.port s hset rfl h

end Sys2Proof.Machine
end

