-- ==== Sys2Proof/Laws/ModulusPrime.lean ====
section
/-! SUPPORT. P is prime (00_scope.md R7), by Lucas's test down a chain of factorisations of p - 1. -/

namespace Sys2Proof.Machine

/-- `r · b^e mod n` by squaring, for an exponent below `2 ^ fuel`. -/
def powMod (n : Nat) : Nat → Nat → Nat → Nat → Nat
  | 0, r, _, _ => r % n
  | fuel + 1, r, b, e => if e = 0 then r % n else powMod n fuel (if e % 2 = 1 then r * b % n else r) (b * b % n) (e / 2)

theorem powMod_eq (n fuel r b e : Nat) (he : e < 2 ^ fuel) : powMod n fuel r b e = r * b ^ e % n := by
  induction fuel generalizing r b e with
  | zero =>
    have : e = 0 := by simpa using he
    simp [powMod, this]
  | succ fuel ih =>
    unfold powMod
    split
    · rename_i h; simp [h]
    · have hlt : e / 2 < 2 ^ fuel := by rw [Nat.pow_succ] at he; omega
      rw [ih _ _ _ hlt]
      have hsq : (b * b % n) ^ (e / 2) % n = b ^ (2 * (e / 2)) % n := by
        rw [← Nat.pow_mod, ← pow_two, ← pow_mul]
      split
      · rw [Nat.mul_mod, hsq, Nat.mod_mod, ← Nat.mul_mod]
        conv_rhs => rw [show e = 2 * (e / 2) + 1 by omega, pow_succ]
        congr 1
        ring
      · rw [Nat.mul_mod, hsq, ← Nat.mul_mod]
        conv_rhs => rw [show e = 2 * (e / 2) by omega]

theorem zmod_pow_eq_one_iff {p : Nat} (hp : 1 < p) (a e fuel : Nat) (he : e < 2 ^ fuel) :
    (a : ZMod p) ^ e = 1 ↔ powMod p fuel 1 a e = 1 := by
  rw [powMod_eq _ _ _ _ _ he, one_mul, ← Nat.cast_one, ← Nat.cast_pow, ZMod.natCast_eq_natCast_iff',
    Nat.mod_eq_of_lt hp]

/-- Lucas's test on numbers: `qs` are primes whose powers make up p - 1. -/
theorem prime_of_lucas (p a fuel : Nat) (qs : List (Nat × Nat)) (hp : 1 < p) (hf : p < 2 ^ fuel)
    (hprime : ∀ q ∈ qs, Nat.Prime q.1) (hprod : (qs.map fun q => q.1 ^ q.2).prod = p - 1)
    (hone : powMod p fuel 1 a (p - 1) = 1) (hne : ∀ q ∈ qs, powMod p fuel 1 a ((p - 1) / q.1) ≠ 1) : Nat.Prime p := by
  refine lucas_primality p (a : ZMod p) ?_ ?_
  · exact (zmod_pow_eq_one_iff hp a _ fuel (by omega)).2 hone
  · intro q hq hdvd h1
    have hmem : ∃ x ∈ qs, x.1 = q := by
      rw [← hprod, Prime.dvd_prod_iff hq.prime] at hdvd
      obtain ⟨y, hy, hqy⟩ := hdvd
      obtain ⟨x, hx, rfl⟩ := List.mem_map.1 hy
      exact ⟨x, hx, ((Nat.prime_dvd_prime_iff_eq hq (hprime x hx)).1 (hq.dvd_of_dvd_pow hqy)).symm⟩
    obtain ⟨x, hx, rfl⟩ := hmem
    refine hne x hx ((zmod_pow_eq_one_iff hp a _ fuel ?_).1 h1)
    exact Nat.lt_of_le_of_lt (Nat.div_le_self _ _) (by omega)

theorem prime_405928799 : Nat.Prime 405928799 := by
  refine prime_of_lucas _ 22 30 [(2, 1), (11, 1), (3691, 1), (4999, 1)] (by decide +kernel) (by decide +kernel) ?_ (by decide +kernel) (by decide +kernel) (by decide +kernel)
  simp only [List.forall_mem_cons, List.not_mem_nil, false_imp_iff, implies_true, and_true]
  refine ⟨?_, ?_, ?_, ?_⟩ <;> norm_num

theorem prime_639533339 : Nat.Prime 639533339 := by
  refine prime_of_lucas _ 2 30 [(2, 1), (229, 1), (853, 1), (1637, 1)] (by decide +kernel) (by decide +kernel) ?_ (by decide +kernel) (by decide +kernel) (by decide +kernel)
  simp only [List.forall_mem_cons, List.not_mem_nil, false_imp_iff, implies_true, and_true]
  refine ⟨?_, ?_, ?_, ?_⟩ <;> norm_num

theorem prime_65865678001877903 : Nat.Prime 65865678001877903 := by
  refine prime_of_lucas _ 5 60 [(2, 1), (83, 1), (379, 1), (1637, 1), (639533339, 1)] (by decide +kernel) (by decide +kernel) ?_
    (by decide +kernel) (by decide +kernel) (by decide +kernel)
  simp only [List.forall_mem_cons, List.not_mem_nil, false_imp_iff, implies_true, and_true]
  refine ⟨?_, ?_, ?_, ?_, prime_639533339⟩ <;> norm_num

theorem prime_13818364434197438864469338081 : Nat.Prime 13818364434197438864469338081 := by
  refine prime_of_lucas _ 3 100 [(2, 5), (5, 1), (823, 1), (1593227, 1), (65865678001877903, 1)] (by decide +kernel)
    (by decide +kernel) ?_ (by decide +kernel) (by decide +kernel) (by decide +kernel)
  simp only [List.forall_mem_cons, List.not_mem_nil, false_imp_iff, implies_true, and_true]
  refine ⟨?_, ?_, ?_, ?_, prime_65865678001877903⟩ <;> norm_num

theorem prime_12048837557 : Nat.Prime 12048837557 := by
  refine prime_of_lucas _ 2 40 [(2, 2), (7, 2), (661, 1), (93001, 1)] (by decide +kernel) (by decide +kernel) ?_
    (by decide +kernel) (by decide +kernel) (by decide +kernel)
  simp only [List.forall_mem_cons, List.not_mem_nil, false_imp_iff, implies_true, and_true]
  refine ⟨?_, ?_, ?_, ?_⟩ <;> norm_num

theorem prime_5156902474397 : Nat.Prime 5156902474397 := by
  refine prime_of_lucas _ 2 50 [(2, 2), (107, 1), (12048837557, 1)] (by decide +kernel) (by decide +kernel) ?_
    (by decide +kernel) (by decide +kernel) (by decide +kernel)
  simp only [List.forall_mem_cons, List.not_mem_nil, false_imp_iff, implies_true, and_true]
  refine ⟨?_, ?_, prime_12048837557⟩ <;> norm_num

theorem prime_1670836401704629 : Nat.Prime 1670836401704629 := by
  refine prime_of_lucas _ 2 60 [(3, 4), (2, 2), (5156902474397, 1)] (by decide +kernel) (by decide +kernel) ?_
    (by decide +kernel) (by decide +kernel) (by decide +kernel)
  simp only [List.forall_mem_cons, List.not_mem_nil, false_imp_iff, implies_true, and_true]
  refine ⟨?_, ?_, prime_5156902474397⟩ <;> norm_num

/-- The field modulus is prime (R7). -/
theorem prime_P : Nat.Prime P := by
  refine prime_of_lucas _ 5 254 [(2, 28), (3, 2), (13, 1), (29, 1), (983, 1), (11003, 1), (237073, 1), (405928799, 1),
    (1670836401704629, 1), (13818364434197438864469338081, 1)] (by decide +kernel) (by decide +kernel) ?_ (by decide +kernel) (by decide +kernel)
    (by decide +kernel)
  simp only [List.forall_mem_cons, List.not_mem_nil, false_imp_iff, implies_true, and_true]
  refine ⟨?_, ?_, ?_, ?_, ?_, ?_, ?_, prime_405928799, prime_1670836401704629, prime_13818364434197438864469338081⟩ <;>
    norm_num

end Sys2Proof.Machine
end

