-- ==== Sys2Proof/Laws/PerInstr.lean ====
section
/-! SUPPORT. One statement about every command as syntax: its word is well formed and carries its opcode, and the four
bytes of the word, little-endian, decode to it (30_encoding.md R60, R62, 20_memory.md R43). -/

namespace Sys2Proof.Laws.EncodedWord

/-- The command's word is its opcode with RSV 0, its fields are well formed, and the word's bytes decode to it. -/
def Statement (i : Instr) : Prop :=
  i.wellFormed = true ∧ (encode i).toNat = i.opcode.toNat ∧ (CW.ofWord (encode i)).wellFormed = true ∧
    decodeLanes (BitVec.ofNat 8 i.opcode.toNat) 0 0 0 = .ok i

theorem nop : Statement .nop := ⟨rfl, rfl, rfl, rfl⟩

theorem init : Statement .init := ⟨rfl, rfl, rfl, rfl⟩

theorem round : Statement .round := ⟨rfl, rfl, rfl, rfl⟩

theorem permute : Statement .permute := ⟨rfl, rfl, rfl, rfl⟩

theorem hash : Statement .hash := ⟨rfl, rfl, rfl, rfl⟩

theorem modpow : Statement .modpow := ⟨rfl, rfl, rfl, rfl⟩

end Sys2Proof.Laws.EncodedWord
end

