-- ==== Sys2Proof/Tests/Slice0.lean ====
section
/-! SUPPORT. Tests of one step or one function each, with results taken from 95_test_vectors.md and the worked examples
of the rules, and for every statement of Certificates/Slice0/Obligations.lean a witness that meets its hypotheses. -/

namespace Sys2Proof.Tests
open Sys2Proof Sys2Proof.Machine

/-! ## States and host transactions the tests are written with -/

/-- The block after the first cycle of 70_reset_and_hazards.md R171, with `BASE` = 0x100 and latencies that differ. -/
def idle : State :=
  { State.reset with
    settling := false
    params := ⟨1, ⟨0, 1, 2, Vector.replicate NR 3, 4, 5, [(5, 6)]⟩⟩ }

/-- The block with this command in flight, `n` cycles before its completion. -/
def flying (op : Op) (n : Nat) (s : State) : State := { s with busy := true, inflight := some ⟨op, n⟩ }

/-- The host makes this transaction in the next cycle. -/
def does (t : Transaction) (s : State) : State := { s with port := [⟨true, some t⟩] }

/-- The host writes a word at this offset in the next cycle. -/
def writes (off : Nat) (w : Word) (s : State) : State := does (.write (s.base + off) 4 w) s

/-- The host reads a word at this offset in the next cycle. -/
def reads (off : Nat) (s : State) : State := does (.read (s.base + off) 4) s

/-- The next state, if there is one. -/
def next? : Host.Outcome State Fault Refusal → Option State
  | .next t => some t
  | .fault _ => none
  | .refused _ => none

/-- STATUS as a host would read it after the step. -/
def status? (s : State) : Option Word := (next? (step s)).map statusWord

/-- The port's answer after the step. -/
def answer? (s : State) : Option Answer := (next? (step s)).bind State.answer

/-- MODPOW of 0 to the 0, `n` cycles before its completion. -/
def powFlying (n : Nat) : State := flying (captureModpow idle) n idle

/-- HASH of 1 and 2, `n` cycles before its completion. -/
def hashInputs : State := { idle with in0 := 1, in1 := 2 }

def hashFlying (n : Nat) : State :=
  flying (.hash 1 2 ⟨8, .before, perm ⟨1, 2, 0⟩⟩) n hashInputs

/-- A block with rounds left. -/
def atRound (k : Fin (NR + 1)) (v : Triple) : State := { idle.setTriple v with rcnt := k }

/-- ROUND at index `k` of `v`, in its last cycle. -/
def roundFlying (k : Fin NR) (v : Triple) : State :=
  flying (captureRound k (atRound k.castSucc v)) 1 (atRound k.castSucc v)

/-! ## WellFormed: an ill-formed command word for each check -/

theorem test_wellFormed_accepts_hash : (CW.mk 4 0).wellFormed = true := by decide

theorem test_wellFormed_refuses_reserved_bits :
    (CW.mk 4 1).reservedBitsClear = false ∧ (CW.mk 4 1).opcodeAssigned = true ∧ (CW.mk 4 1).wellFormed = false := by
  decide

theorem test_wellFormed_refuses_reserved_opcode :
    (CW.mk 6 0).opcodeAssigned = false ∧ (CW.mk 6 0).reservedBitsClear = true ∧ (CW.mk 6 0).wellFormed = false := by
  decide

/-! ## Decode: every command's word, from the opcode map of 30_encoding.md R62 (OP in bits 3:0) -/

theorem test_decode_nop : decode 0b00000000000000000000000000000000#32 = .ok .nop := by rfl

theorem test_decode_init : decode 0b00000000000000000000000000000001#32 = .ok .init := by rfl

theorem test_decode_round : decode 0b00000000000000000000000000000010#32 = .ok .round := by rfl

theorem test_decode_permute : decode 0b00000000000000000000000000000011#32 = .ok .permute := by rfl

theorem test_decode_hash : decode 0b00000000000000000000000000000100#32 = .ok .hash := by rfl

theorem test_decode_modpow : decode 0b00000000000000000000000000000101#32 = .ok .modpow := by rfl

/-- 95_test_vectors.md E4 to E6. -/
theorem test_decode_rejects :
    decode 0x00000006#32 = .error .reservedOpcode ∧ decode 0x0000000F#32 = .error .reservedOpcode ∧
      decode 0x00000014#32 = .error .reservedBits ∧ decode 0x80000002#32 = .error .reservedBits :=
  ⟨rfl, rfl, rfl, rfl⟩

/-- 20_memory.md R43: the opcode is in the byte at the lowest address. -/
theorem test_decode_lanes : decodeLanes 4 0 0 0 = .ok .hash ∧ decodeLanes 0 0 0 4 = .error .reservedBits := ⟨rfl, rfl⟩

theorem test_decodeTableWord : decodeTableWord 32 5 = some .modpow ∧ decodeTableWord 32 6 = none := by decide

/-! ## Field arithmetic and permutation: 95_test_vectors.md §2.1 to §2.7 -/

theorem test_fred_widest :
    fred (2 ^ 256 - 1) = 6350874878119819312338956282401532410528162663560392320966563075034087161850 := by
  decide

theorem test_field_wraps : fadd (P - 1) (P - 1) = P - 2 ∧ fmul (P - 1) (P - 1) = 1 := by decide

theorem test_modpow_widest_exponent :
    modpow 2 (2 ^ 256 - 1) = 19934763065868495293735090332857496386797496831580290784165790091924986180159 := by
  decide +kernel

theorem test_sbox : sbox 12 = 248832 ∧ sbox (P - 2) = P - 32 := by decide

theorem test_mix_reduces_once : mix ⟨P - 1, 0, 1⟩ = ⟨P - 1, 0, 1⟩ ∧ mix ⟨1, 32, 243⟩ = ⟨277, 308, 519⟩ := by
  decide

theorem test_partial_round :
    arc ⟨0, 0, 0⟩ 2 = ⟨12, 22, 32⟩ ∧ sboxLayer ⟨12, 22, 32⟩ 2 = ⟨248832, 22, 32⟩ ∧
      roundFn ⟨0, 0, 0⟩ 2 = ⟨497718, 248908, 248918⟩ := by decide

theorem test_full_rounds :
    roundFn ⟨P - 1, P - 1, P - 1⟩ 0 = ⟨33, 34, 65⟩ ∧ roundFn ⟨0, 0, 0⟩ 7 = ⟨224585, 250866, 291817⟩ ∧
      roundFn ⟨1331, 2323, 1542⟩ 1 = ⟨85333764630232138, 149209584674815621, 89956801564193221⟩ := by decide

theorem test_known_digests :
    H 123456789 987654321 = 21211605167783748478198991034217750710666889077103304402041408732752963186065 ∧
      H 1 0 = 10716508767575293791927057112762921885772109560591936377300166875224825977089 ∧
      H 0 1 = 11126733517245517863890106063029329871772446849358099353333029725657100644306 := by decide

/-! ## Each command: its acceptance, and its completion -/

/-- 95_test_vectors.md E4, E7: NOP clears ERR. -/
theorem test_nop_accepted :
    status? (({ idle with err := .illegal } : State).withFetchWord 32 0) = some 0x00000801#32 := by decide

theorem test_nop_completes :
    status? (flying .nop 1 idle) = some 0x00000800#32 := by decide

/-- 41_permutation.md R120: INIT of 1 and 2. -/
theorem test_init_completes :
    (next? (step (flying (.init 1 2) 1 idle))).map (fun t => (t.triple, t.rcnt, t.busy)) =
      some (⟨1, 2, 0⟩, 0, false) := by decide

/-- 41_permutation.md R120: P reduces to 0, and the widest value to its residue. -/
theorem test_init_reduces :
    (next? (step (flying (.init (BitVec.ofNat 256 P) (BitVec.allOnes 256)) 1 idle))).map State.triple =
      some ⟨0, 6350874878119819312338956282401532410528162663560392320966563075034087161850, 0⟩ := by decide

/-- 41_permutation.md R121: the round from zeros. -/
theorem test_round_completes :
    (next? (step (roundFlying 0 ⟨0, 0, 0⟩))).map (fun t => (t.triple, t.rcnt)) = some (⟨277, 308, 519⟩, 1) := by
  decide

/-- 95_test_vectors.md E2. -/
theorem test_round_rejected_after_reset : status? (idle.withFetchWord 32 2) = some 0x00000830#32 := by decide

/-- 41_permutation.md R122: PERMUTE after INIT of zeros. -/
theorem test_permute_completes :
    (next? (step (flying (capturePermute 0 (atRound 0 ⟨0, 0, 0⟩)) 1 (atRound 0 ⟨0, 0, 0⟩)))).map
      (fun t => (t.s0.toNat, t.rcnt)) =
      some (3726168635605505378214265510820414452620660667547784670125577659766201037750, 8) := by decide

/-- 95_test_vectors.md E3. -/
theorem test_permute_rejected_after_reset : status? (idle.withFetchWord 32 3) = some 0x00000830#32 := by
  decide

/-- 95_test_vectors.md §2.7: the whole final state for (1, 2). -/
theorem test_hash_completes :
    (next? (step (flying (captureHash hashInputs) 1 hashInputs))).map State.triple =
      some ⟨12549028707974041819487093793818750400883759195492777583506602954624394362327,
        20154715681053795509751866273510391779040616481118342446605489324959329108348,
        21637165898168648809893913897157434241707176470201406214782468093603361135844⟩ := by
  decide +kernel

theorem test_hash_accepted : status? (idle.withFetchWord 32 4) = some 0x00000801#32 := by decide

/-- 95_test_vectors.md W4: 3 to the 5; the state and RCNT stay. -/
theorem test_modpow_completes :
    (next? (step (flying (.modpow 3 5 (PowWork.start 3 5)) 1 (atRound 2 ⟨7, 8, 9⟩)))).map
      (fun t => (t.res, t.triple, t.rcnt)) = some (243, ⟨7, 8, 9⟩, 2) := by decide

/-- 40_field_arithmetic.md R90: P + 3 is reduced; the loop is in progress after one turn. -/
theorem test_modpow_reduces :
    (next? (step (flying (Op.modpow (BitVec.ofNat 256 (P + 3)) 5 (PowWork.start (P + 3) 5)).advance 1 idle))).map
      State.res = some 243 := by decide

/-! ## The port: 95_test_vectors.md §2.8 -/

theorem test_E1_status_after_reset : answer? (reads 0xC4 idle) = some (.read 0x00000800 .okay) := by decide

theorem test_E4_E5_E6_illegal :
    status? (writes 0xC0 0x00000006 idle) = some 0x00000810#32 ∧
      status? (writes 0xC0 0x00000014 idle) = some 0x00000810#32 ∧
      status? (writes 0xC0 0x80000002 idle) = some 0x00000810#32 := by decide

theorem test_E8_E9_read_only :
    next? (step (writes 0x40 5 idle)) = some { idle with answer := some (.write .error) } ∧
      next? (step (writes 0xC4 0 idle)) = some { idle with answer := some (.write .error) } := by decide

theorem test_E10_E11_bad_reads :
    answer? (reads 0xC8 idle) = some (.read 0 .error) ∧ answer? (reads 0x02 idle) = some (.read 0 .error) := by
  decide

theorem test_E12_byte_write :
    next? (step (does (.write 0x100 1 7) idle)) = some { idle with answer := some (.write .error) } := by decide

theorem test_E13_cmd_reads_zero : answer? (reads 0xC0 idle) = some (.read 0 .okay) := by decide

theorem test_E14_E15_busy_writes :
    (next? (step (writes 0x00 9 (powFlying 3)))).map (fun t => (t.in0, statusWord t)) = some (0, 0x00000821) ∧
      status? (writes 0xC0 0x00000006 (powFlying 3)) = some 0x00000821#32 := by decide

theorem test_E16_bus_error_while_busy :
    (next? (step (writes 0xA0 0 (powFlying 3)))).map (fun t => (t.err, t.answer)) =
      some (.ok, some (.write .error)) := by decide

/-- 95_test_vectors.md L3.3: the write right after MODPOW is dropped before the completion and taken with it. -/
theorem test_L33_both_outcomes :
    (next? (step (writes 0x00 7 (powFlying 2)))).map (fun t => (t.in0, t.err, t.busy)) = some (0, .busy, true) ∧
      (next? (step (writes 0x00 7 (powFlying 1)))).map (fun t => (t.in0, t.err, t.busy)) = some (7, .ok, false) := by
  decide

/-- 95_test_vectors.md §2.1: P as words, word 0 first. -/
theorem test_word_order :
    wordOrder.map (regWord (BitVec.ofNat 256 P)) =
      [0xF0000001, 0x43E1F593, 0x79B97091, 0x2833E848, 0x8181585D, 0xB85045B6, 0xE131A029, 0x30644E72] := by
  decide

theorem test_input_write_replaces_word_7 :
    (next? (step (writes 0x3C 5 { idle with in1 := BitVec.allOnes 256 }))).map (fun t => wordOrder.map (regWord t.in1)) =
      some [0xFFFFFFFF, 0xFFFFFFFF, 0xFFFFFFFF, 0xFFFFFFFF, 0xFFFFFFFF, 0xFFFFFFFF, 0xFFFFFFFF, 5] := by
  decide

/-- 70_reset_and_hazards.md R171: the first cycle after reset. -/
theorem test_transaction_right_after_reset :
    step (writes 0xC0 4 State.reset) = .refused .transactionInFirstCycle := by rfl

/-! ## The host driver: 95_test_vectors.md L3.4 -/

theorem test_numerals :
    parseNumeral ['1', '2', '.', '3'] = .ok 123 ∧ parseNumeral ['1', '2', 'a'] = .error .invalidNumeral ∧
      parseNumeral ['.'] = .error .invalidNumeral := by decide

theorem test_driver_rejects_before_the_block :
    hashStr 9 [['1', '2', 'a'], ['4']] idle = .error .invalidNumeral ∧
      hashStr 9 [['1']] idle = .error .invalidArity := ⟨rfl, rfl⟩

theorem test_decimal : decimal 0 = ['0'] ∧ decimal 1203 = ['1', '2', '0', '3'] := by decide

/-! ## Witnesses: the hypotheses of every statement can be met -/

/-- The value 0 is a field element. -/
theorem zero_inFp : InFp 0 := P_pos

theorem inv_idle : Inv idle :=
  ⟨zero_inFp, zero_inFp, zero_inFp, zero_inFp, by decide, nofun, nofun⟩

theorem inv_hashInputs : Inv hashInputs :=
  ⟨zero_inFp, zero_inFp, zero_inFp, zero_inFp, by decide, nofun, nofun⟩

/-- A block with a command in flight meets the invariant when the record is faithful. -/
theorem inv_flying {s : State} (h : Inv s) {op : Op} {n : Nat} (hn : 1 ≤ n) (hf : op.Faithful s) :
    Inv (flying op n s) := by
  refine ⟨h.s0_inFp, h.s1_inFp, h.s2_inFp, h.res_inFp, ⟨fun _ => by simp [flying], fun _ => rfl⟩, ?_, ?_⟩
  · intro f hg
    obtain rfl : (⟨op, n⟩ : InFlight) = f := by simpa [flying] using hg
    exact hn
  · intro f hg
    obtain rfl : (⟨op, n⟩ : InFlight) = f := by simpa [flying] using hg
    cases op <;> exact hf

theorem inv_powFlying {n : Nat} (h : 1 ≤ n) : Inv (powFlying n) := inv_flying inv_idle h ⟨rfl, rfl, rfl⟩

theorem faithful_hash : (Op.hash 1 2 ⟨8, .before, perm ⟨1, 2, 0⟩⟩).Faithful hashInputs :=
  ⟨rfl, rfl, by decide⟩

theorem inv_hashFlying {n : Nat} (h : 1 ≤ n) : Inv (hashFlying n) := inv_flying inv_hashInputs h faithful_hash

/-- A transaction of the helper `does` is the next one. -/
theorem next_does {s : State} (t : Transaction) (h : s.settling = false) : NextTransaction (does t s) t [] :=
  ⟨rfl, h⟩

/-- Boundary words for each clause. -/
theorem witness_DecoderIsTheSpecs :
    (0x00000010#32).toNat / 16 ≠ 0 ∧ (0xFFFFFFFF#32).toNat / 16 ≠ 0 ∧
      ((0x0000000F#32).toNat / 16 = 0 ∧ 6 ≤ (0x0000000F#32).toNat) ∧
      ((0x00000006#32).toNat / 16 = 0 ∧ 6 ≤ (0x00000006#32).toNat) ∧ (0x00000005#32).toNat = 5 ∧
      (0x00000000#32).toNat = 0 := by decide

theorem witness_DecodeAndEncodeAgree : decode 0x00000005#32 = .ok .modpow := by rfl

theorem witness_StepRunsTheDecodedCommand :
    NextTransaction (writes 0xC0 4 idle) (.write ((writes 0xC0 4 idle).base + 0xC0) 4 4) [] ∧
      decode 4#32 = .ok .hash := ⟨⟨rfl, rfl⟩, rfl⟩

theorem witness_PlacedCommandIsTheNextStep : decode 1#32 = .ok .init := by rfl

/-- Each clause: busy, an illegal word, a sequence error, an acceptance. -/
theorem witness_CommandAcceptanceAndPriority :
    (NextTransaction (writes 0xC0 2 (powFlying 2)) (.write ((powFlying 2).base + 0xC0) 4 2) [] ∧
      (answerWrite .okay (ready (writes 0xC0 2 (powFlying 2)) [])).busy = true) ∧
    (NextTransaction (writes 0xC0 0x80000002 idle) (.write (idle.base + 0xC0) 4 0x80000002) [] ∧
      (answerWrite .okay (ready (writes 0xC0 0x80000002 idle) [])).busy = false ∧
      ∀ i, decode 0x80000002#32 ≠ .ok i) ∧
    (NextTransaction (writes 0xC0 2 idle) (.write (idle.base + 0xC0) 4 2) [] ∧
      (answerWrite .okay (ready (writes 0xC0 2 idle) [])).busy = false ∧ decode 2#32 = .ok .round ∧
      (answerWrite .okay (ready (writes 0xC0 2 idle) [])).rcnt = 8) ∧
    (NextTransaction (writes 0xC0 2 (atRound 7 ⟨0, 0, 0⟩)) (.write (idle.base + 0xC0) 4 2) [] ∧
      (answerWrite .okay (ready (writes 0xC0 2 (atRound 7 ⟨0, 0, 0⟩)) [])).busy = false ∧
      (answerWrite .okay (ready (writes 0xC0 2 (atRound 7 ⟨0, 0, 0⟩)) [])).rcnt ≠ 8) :=
  ⟨⟨⟨rfl, rfl⟩, rfl⟩, ⟨⟨rfl, rfl⟩, rfl, nofun⟩, ⟨⟨rfl, rfl⟩, rfl, rfl, rfl⟩, ⟨⟨rfl, rfl⟩, rfl, by decide⟩⟩

/-- A cycle the model stops on and one it does not. -/
theorem witness_OnlyTheseCyclesStop :
    Stops (reads 0xC4 State.reset) (nextCycle (reads 0xC4 State.reset)).1 ∧
      ¬ Stops (reads 0xC4 idle) (nextCycle (reads 0xC4 idle)).1 := by
  refine ⟨⟨_, rfl, .inr (.inl rfl)⟩, ?_⟩
  rintro ⟨t, ht, h⟩
  obtain rfl : Transaction.read 0x1C4 4 = t := by simpa [nextCycle, reads, does, State.base, idle] using ht
  rcases h with h | h | h
  · cases h
  · cases h
  · exact h ⟨by decide, by decide⟩

theorem witness_TransactionsAroundResetAreRefused :
    ({ idle with port := [⟨false, some (.read 0x1C4 4)⟩] } : State).port = [⟨false, some (.read 0x1C4 4)⟩] ∧
      ((reads 0xC4 State.reset).port = [⟨true, some (.read 0xC4 4)⟩] ∧ (reads 0xC4 State.reset).settling = true) ∧
      ({ idle with port := [⟨false, none⟩] } : State).port = [⟨false, none⟩] ∧
      ({ idle with port := [⟨true, none⟩] } : State).port = [⟨true, none⟩] := ⟨rfl, ⟨rfl, rfl⟩, rfl, rfl⟩

/-- The addresses just below and just above the window. -/
theorem witness_AddressesOutsideTheWindowFault :
    (NextTransaction (does (.read 0xFF 4) idle) (.read 0xFF 4) [] ∧
      ¬ InWindow (does (.read 0xFF 4) idle) (Transaction.read 0xFF 4).addr) ∧
    (NextTransaction (does (.write 0x200 4 0) idle) (.write 0x200 4 0) [] ∧
      ¬ InWindow (does (.write 0x200 4 0) idle) (Transaction.write 0x200 4 0).addr) :=
  ⟨⟨⟨rfl, rfl⟩, fun h => absurd h.1 (by decide)⟩, ⟨⟨rfl, rfl⟩, fun h => absurd h.2 (by decide)⟩⟩

theorem witness_ResetCycleAbandonsTheCommand :
    ({ powFlying 1 with port := [⟨false, none⟩] } : State).port = [⟨false, none⟩] := by rfl

theorem witness_EveryStepKeepsTheInvariant : Inv (hashFlying 1) ∧ ∃ t, step (hashFlying 1) = .next t :=
  ⟨inv_hashFlying (Nat.le_refl 1), _, rfl⟩

theorem witness_ParametersNeverChange : ∃ t, step (writes 0xC0 4 idle) = .next t := ⟨_, rfl⟩

theorem witness_ReductionIsExact : 2 ^ 256 - 1 < 2 ^ 256 := by decide

theorem witness_ModpowCornerCases : (0 % P = 0 ∧ 1 ≤ 1) ∧ ((2 * P) % P = 0 ∧ 1 ≤ 2 ^ 256 - 1) ∧ fred (P - 1) ≠ 0 := by
  decide

theorem witness_SboxIsTheFifthPowerBijection : 0 < P ∧ P - 1 < P := by decide

theorem witness_RoundTypesAndConstants : 0 < 8 ∧ 7 < 8 := by decide

/-- The rounds where the types change, and the first and last. -/
theorem witness_RoundsFollowTheirType :
    (0 < 8 ∧ ¬ (2 ≤ 0 ∧ 0 < 6)) ∧ (1 < 8 ∧ ¬ (2 ≤ 1 ∧ 1 < 6)) ∧ (2 < 8 ∧ 2 ≤ 2 ∧ 2 < 6) ∧ (5 < 8 ∧ 2 ≤ 5 ∧ 5 < 6) ∧
      (6 < 8 ∧ ¬ (2 ≤ 6 ∧ 6 < 6)) ∧ (7 < 8 ∧ ¬ (2 ≤ 7 ∧ 7 < 6)) := by decide

theorem witness_MixerProperties :
    (Triple.mk (P - 1) 0 1).InFp ∧ mix ⟨P - 1, 0, 1⟩ = mix ⟨P - 1, 0, 1⟩ := ⟨⟨by decide, by decide, by decide⟩, rfl⟩

theorem witness_PermutationIsABijection :
    0 ≤ 8 ∧ 8 ≤ 8 ∧ (Triple.mk 1 2 0).InFp ∧ permFrom ⟨1, 2, 0⟩ 0 = permFrom ⟨1, 2, 0⟩ 0 :=
  ⟨by decide, by decide, ⟨by decide, by decide, by decide⟩, rfl⟩

theorem witness_DigestDependsOnResidues : P % P = 0 % P ∧ (P + 1) % P = 1 % P := by decide

/-- The hypotheses of the statements about NOP, INIT, HASH and MODPOW. -/
theorem witness_NopClearsErrAndNothingElse :
    (powFlying 1).busy = true ∧ ({ idle with err := .seq } : State).busy = false ∧
      QuietIdle { idle with err := .seq } := ⟨rfl, rfl, rfl, rfl, rfl⟩

theorem witness_InitLoadsTheReducedInputs :
    (powFlying 1).busy = true ∧ hashInputs.busy = false ∧ QuietIdle hashInputs := ⟨rfl, rfl, rfl, rfl, rfl⟩

/-- RCNT at its first and last index, and past the last. -/
theorem witness_RoundAppliesOneRound :
    (powFlying 1).busy = true ∧ (idle.busy = false ∧ idle.rcnt = 8) ∧
      ((atRound 0 ⟨1, 2, 0⟩).busy = false ∧ (atRound 0 ⟨1, 2, 0⟩).rcnt = (0 : Fin 8).castSucc ∧
        QuietIdle (atRound 0 ⟨1, 2, 0⟩)) ∧
      ((atRound 7 ⟨1, 2, 0⟩).rcnt = (7 : Fin 8).castSucc ∧ QuietIdle (atRound 7 ⟨1, 2, 0⟩)) :=
  ⟨rfl, ⟨rfl, rfl⟩, ⟨rfl, rfl, rfl, rfl, rfl⟩, rfl, rfl, rfl, rfl⟩

theorem witness_PermuteAppliesTheRemainingRounds :
    (powFlying 1).busy = true ∧ (idle.busy = false ∧ idle.rcnt = 8) ∧
      ((atRound 0 ⟨1, 2, 0⟩).busy = false ∧ (atRound 0 ⟨1, 2, 0⟩).rcnt = (0 : Fin 8).castSucc ∧
        QuietIdle (atRound 0 ⟨1, 2, 0⟩)) ∧
      ((atRound 7 ⟨1, 2, 0⟩).rcnt = (7 : Fin 8).castSucc ∧ QuietIdle (atRound 7 ⟨1, 2, 0⟩)) :=
  ⟨rfl, ⟨rfl, rfl⟩, ⟨rfl, rfl, rfl, rfl, rfl⟩, rfl, rfl, rfl, rfl⟩

theorem witness_HashRunsToTheDigest :
    (powFlying 1).busy = true ∧ hashInputs.busy = false ∧ QuietIdle hashInputs := ⟨rfl, rfl, rfl, rfl, rfl⟩

theorem witness_ModpowWritesThePowerToRes :
    (hashFlying 1).busy = true ∧ hashInputs.busy = false ∧ QuietIdle hashInputs := ⟨rfl, rfl, rfl, rfl, rfl⟩

/-- A rejected command and an accepted one. -/
theorem witness_CommandWriteFrame :
    (∃ t, exec .round idle = .next t ∧ t.err ≠ .ok) ∧ ∃ t, exec .hash idle = .next t ∧ t.err = .ok :=
  ⟨⟨_, rfl, by decide⟩, _, rfl, rfl⟩

theorem witness_CommandSequencesAreEquivalent :
    QuietIdle hashInputs ∧ (1 ≤ 1 ∧ 1 ≤ 7) ∧ 1 ≤ 7 ∧ 7 ≤ 7 := ⟨⟨rfl, rfl, rfl⟩, by decide, by decide, by decide⟩

theorem witness_ParametersDoNotShowInResults :
    QuietIdle hashInputs ∧ hashInputs.inflight = none ∧
      ∃ t, runCommand (latency .init hashInputs) .init hashInputs = .next t := ⟨⟨rfl, rfl, rfl⟩, rfl, _, rfl⟩

/-- A faithful record of every command. -/
theorem witness_EngineProgressKeepsTheResult :
    Op.nop.Faithful idle ∧ (captureInit idle).Faithful idle ∧
      (captureRound 7 (atRound 7 ⟨1, 2, 0⟩)).Faithful (atRound 7 ⟨1, 2, 0⟩) ∧
      (capturePermute 0 (atRound 0 ⟨1, 2, 0⟩)).Faithful (atRound 0 ⟨1, 2, 0⟩) ∧
      (captureHash hashInputs).Faithful hashInputs ∧ (captureModpow hashInputs).Faithful hashInputs :=
  ⟨trivial, ⟨rfl, rfl⟩, ⟨rfl, rfl, by decide⟩, ⟨rfl, rfl, by decide⟩, ⟨rfl, rfl, by decide⟩,
    ⟨rfl, rfl, rfl⟩⟩

/-- A command in flight and a host that writes IN0 in the next cycle. -/
theorem witness_HostCannotDisturbTheCommand :
    Inv (writes 0x00 7 (powFlying 2)) ∧
      (writes 0x00 7 (powFlying 2)).inflight = some ⟨captureModpow idle, 2⟩ ∧ 1 < 2 ∧
      (∀ c ∈ (writes 0x00 7 (powFlying 2)).port, c.rstN = true) ∧
      ∃ u, runFor 1 (writes 0x00 7 (powFlying 2)) = .next u := by
  have h := inv_powFlying (n := 2) (by decide)
  exact ⟨⟨h.s0_inFp, h.s1_inFp, h.s2_inFp, h.res_inFp, h.busy_iff_inflight, h.latency_left, h.faithful⟩, rfl, by decide,
    by decide, _, rfl⟩

theorem witness_EveryCommandCompletesWithItsResult :
    Inv (writes 0x00 7 (powFlying 2)) ∧
      (writes 0x00 7 (powFlying 2)).inflight = some ⟨captureModpow idle, 2⟩ ∧
      (∀ c ∈ (writes 0x00 7 (powFlying 2)).port, c.rstN = true) ∧
      ∃ u, runFor (2 - 1) (writes 0x00 7 (powFlying 2)) = .next u :=
  have ⟨a, b, _, d, e⟩ := witness_HostCannotDisturbTheCommand
  ⟨a, b, d, e⟩

/-- A completion and a reset cycle that change the state. -/
theorem witness_StateChangesOnlyAtCompletion :
    (Inv (hashFlying 1) ∧ ∃ t, step (hashFlying 1) = .next t ∧ t.s0 ≠ (hashFlying 1).s0) ∧
      ∃ t, step { atRound 3 ⟨1, 2, 0⟩ with port := [⟨false, none⟩] } = .next t ∧ t.s1 ≠ (atRound 3 ⟨1, 2, 0⟩).s1 :=
  ⟨⟨inv_hashFlying (Nat.le_refl 1), _, rfl, by decide⟩, _, rfl, by decide⟩

theorem witness_OnlyModpowAndResetWriteRes :
    (∃ t, step (powFlying 1) = .next t ∧ t.res ≠ (powFlying 1).res) ∧
      ∃ t, step { idle with res := 5, port := [⟨false, none⟩] } = .next t ∧ t.res ≠ 5 :=
  ⟨⟨_, rfl, by decide⟩, _, rfl, by decide⟩

theorem witness_OnlyTheHostWritesInputs :
    (∃ t, step (writes 0x1C 7 idle) = .next t ∧ t.in0 ≠ idle.in0) ∧
      ∃ t, step (writes 0x20 7 idle) = .next t ∧ t.in1 ≠ idle.in1 :=
  ⟨⟨_, rfl, by decide⟩, _, rfl, by decide⟩

theorem witness_ErrChangesOnlyAtItsEvents :
    (∃ t, step (writes 0xC0 6 idle) = .next t ∧ t.err ≠ idle.err) ∧
      (∃ t, step (writes 0x20 7 (powFlying 2)) = .next t ∧ t.err ≠ (powFlying 2).err) ∧
      ∃ t, step { idle with err := .seq, port := [⟨false, none⟩] } = .next t ∧ t.err ≠ .seq :=
  ⟨⟨_, rfl, by decide⟩, ⟨_, rfl, by decide⟩, _, rfl, by decide⟩

theorem witness_BusyRisesAndFallsAsTheRulesSay :
    (∃ t, step (writes 0xC0 5 idle) = .next t ∧ idle.busy = false ∧ t.busy = true) ∧
      ∃ t, step (powFlying 1) = .next t ∧ (powFlying 1).busy = true ∧ t.busy = false :=
  ⟨⟨_, rfl, rfl, rfl⟩, _, rfl, rfl, rfl⟩

theorem witness_ByteLanesAreLittleEndian :
    (0 : Fin 32).val = 4 * (0 : Fin 8).val + (0 : Fin 4).val ∧ (31 : Fin 32).val = 4 * (7 : Fin 8).val + (3 : Fin 4).val := by
  decide

/-- The first word of IN0 and the last of IN1. -/
theorem witness_InputWriteReplacesOneWord :
    ((ready (writes 0x00 7 idle) []).busy = false ∧
      NextTransaction (writes 0x00 7 idle) (.write (idle.base + 4 * (0 : Fin 8).val) 4 7) []) ∧
    ((ready (writes 0x3C 7 idle) []).busy = false ∧
      NextTransaction (writes 0x3C 7 idle) (.write (idle.base + 0x20 + 4 * (7 : Fin 8).val) 4 7) []) :=
  ⟨⟨rfl, rfl, rfl⟩, rfl, rfl, rfl⟩

/-- The offsets where the clauses meet. -/
theorem witness_WritesWhileBusyAreIgnored :
    (∀ off, (ready (writes off 7 (powFlying 2)) []).busy = true ∧
      NextTransaction (writes off 7 (powFlying 2)) (.write ((writes off 7 (powFlying 2)).base + off) 4 7) []) ∧
    ((0x00 % 4 = 0 ∧ 0x00 < 0x40) ∧ 0x3C % 4 = 0 ∧ 0x3C < 0x40) ∧ 0xC0 % 4 = 0 ∧
    ((0x40 % 4 = 0 ∧ 0x40 ≤ 0x40 ∧ 0x40 < 0xC0) ∧ 0xBC % 4 = 0 ∧ 0x40 ≤ 0xBC ∧ 0xBC < 0xC0) ∧
    (0xC4 % 4 = 0 ∧ 0xC4 ≤ 0xC4 ∧ 0xC4 < 0x100) ∧ 0xFC % 4 = 0 ∧ 0xC4 ≤ 0xFC ∧ 0xFC < 0x100 :=
  ⟨fun _ => ⟨rfl, rfl, rfl⟩, by decide⟩

/-- Each cause of a bus error, on a read and on a write, at the offsets where the ranges begin and end. -/
theorem witness_BusErrorsChangeNothing :
    (∀ off size, NextTransaction (does (.read (idle.base + off) size) idle) (.read (idle.base + off) size) []) ∧
    (∀ off size, NextTransaction (does (.write (idle.base + off) size 7) idle) (.write (idle.base + off) size 7) []) ∧
    (0x00 < 0x100 ∧ 1 ≠ 4) ∧ (0x04 < 0x100 ∧ 8 ≠ 4) ∧ (0x02 < 0x100 ∧ 0x02 % 4 ≠ 0) ∧ (0xFF < 0x100 ∧ 0xFF % 4 ≠ 0) ∧
    (0xC8 < 0x100 ∧ 0xC8 ≤ 0xC8) ∧ (0xFC < 0x100 ∧ 0xC8 ≤ 0xFC) ∧ (0x40 ≤ 0x40 ∧ 0x40 < 0xC0) ∧
    (0x40 ≤ 0xBC ∧ 0xBC < 0xC0) ∧ 0xC4 ≤ 0xC4 ∧ 0xC4 < 0xC8 :=
  ⟨fun _ _ => ⟨rfl, rfl⟩, fun _ _ => ⟨rfl, rfl⟩, by decide⟩

/-- RES while idle, S0 while MODPOW is in flight, and CMD. -/
theorem witness_StableReadsReturnTheWord :
    (NextTransaction (reads 0xBC idle) (.read (idle.base + bankOffset .res + 4 * (7 : Fin 8).val) 4) [] ∧
      (ready (reads 0xBC idle) []).bankUnsettled .res = false) ∧
    (NextTransaction (reads 0x40 (powFlying 2)) (.read (idle.base + bankOffset .s0 + 4 * (0 : Fin 8).val) 4) [] ∧
      (ready (reads 0x40 (powFlying 2)) []).bankUnsettled .s0 = false) ∧
    NextTransaction (reads 0xC0 idle) (.read (idle.base + 0xC0) 4) [] :=
  ⟨⟨⟨rfl, rfl⟩, rfl⟩, ⟨⟨rfl, rfl⟩, rfl⟩, rfl, rfl⟩

/-- S0 while HASH is in flight, and RES while MODPOW is. -/
theorem witness_UnspecifiedReadsAreFreeDraws :
    (Inv (hashFlying 2) ∧ (hashFlying 2).bankUnsettled .s0 = true) ∧
    (NextTransaction (reads 0x40 (hashFlying 2)) (.read (idle.base + bankOffset .s0 + 4 * (0 : Fin 8).val) 4) [] ∧
      (ready (reads 0x40 (hashFlying 2)) []).bankUnsettled .s0 = true) ∧
    (NextTransaction (reads 0xBC (powFlying 2)) (.read (idle.base + bankOffset .res + 4 * (7 : Fin 8).val) 4) [] ∧
      (ready (reads 0xBC (powFlying 2)) []).bankUnsettled .res = true) :=
  ⟨⟨inv_hashFlying (by decide), rfl⟩, ⟨⟨rfl, rfl⟩, rfl⟩, ⟨rfl, rfl⟩, rfl⟩

/-- A STATUS read while MODPOW is in flight, and one while HASH is. -/
theorem witness_StatusReadsSeeBusyAndErr :
    (NextTransaction (reads 0xC4 (powFlying 2)) (.read (idle.base + 0xC4) 4) [] ∧
      (tick (reads 0xC4 (powFlying 2))).stateUnsettled = false) ∧
    (NextTransaction (reads 0xC4 (hashFlying 2)) (.read (idle.base + 0xC4) 4) [] ∧
      (tick (reads 0xC4 (hashFlying 2))).stateUnsettled = true) := ⟨⟨⟨rfl, rfl⟩, rfl⟩, ⟨rfl, rfl⟩, rfl⟩

theorem witness_ElementRegistersReadZeroExtended : Bank.s0 ≠ .in0 ∧ Bank.s0 ≠ .in1 ∧ Bank.res ≠ .in0 ∧ Bank.res ≠ .in1 := by
  decide

/-- A write of the last word of IN1, read back in the next cycle. -/
theorem witness_NextReadSeesTheInputWrite :
    (Bank.in1 = .in0 ∨ Bank.in1 = .in1) ∧
      (tick { idle with port := [⟨true, some (.write 0x13C 4 7)⟩, ⟨true, some (.read 0x13C 4)⟩] }).busy = false ∧
      idle.settling = false ∧ idle.base + bankOffset .in1 + 4 * (7 : Fin 8).val = 0x13C :=
  ⟨.inr rfl, rfl, rfl, rfl⟩

theorem witness_DecimalFormIsCanonical : (1 : Nat) ≠ 0 := by decide

theorem witness_NarrowingKeepsTheDigest : 2 ^ 256 - 1 < 2 ^ 256 ∧ 2 ^ 256 ≤ 2 ^ 256 := by decide

/-- An idle block, another agent that reads STATUS and RES, and two numerals; a wrong arity; a malformed numeral. -/
theorem witness_DriverReturnsTheDigest :
    (idle.busy = false ∧ idle.inflight = none ∧ idle.settling = false ∧ latHash idle.params ≤ 5 ∧
      parseNumeral ['1', '2', '.', '3'] = .ok 123 ∧ parseNumeral ['4'] = .ok 4) ∧
    OnlyReads { idle with port := [⟨true, some (.read 0x1C4 4)⟩, ⟨true, none⟩, ⟨true, some (.read 0x1A0 4)⟩] } ∧
    [['1']].length ≠ 2 ∧ [['1'], ['2'], ['3']].length ≠ 2 ∧ ∀ v, parseNumeral ['1', '2', 'a'] ≠ .ok v := by
  refine ⟨by decide, ?_, by decide, by decide, fun _ h => by cases h⟩
  intro c hc
  simp only [List.mem_cons, List.not_mem_nil, or_false] at hc
  rcases hc with rfl | rfl | rfl
  · exact ⟨rfl, fun t ht => ⟨_, _, (Option.some.inj ht).symm, by decide, by decide⟩⟩
  · exact ⟨rfl, nofun⟩
  · exact ⟨rfl, fun t ht => ⟨_, _, (Option.some.inj ht).symm, by decide, by decide⟩⟩

/-- Two hosts (20_memory.md R57): after the driver's HASH the other one writes a command, and then reads CMD until the
HASH has completed. -/
def disturbed : State :=
  { idle with
    port := List.replicate 18 ⟨true, none⟩ ++ ⟨true, some (.write 0x1C0 4 0)⟩ ::
      List.replicate 4 ⟨true, some (.read 0x1C0 4)⟩ }

/-- The value of a host form that ends well. -/
def value? {α : Type} : Except HostError α → Option α
  | .ok x => some x
  | .error _ => none

/-- The error of a host form that does not. -/
def error? {α : Type} : Except HostError α → Option HostError
  | .ok _ => none
  | .error e => some e

/-- The other host's write makes ERR = BUSY, and the driver finds it (45_host_contract.md R146). -/
theorem test_driver_finds_the_disturbance : error? (hashStr 9 [['1'], ['2']] disturbed) = some .disturbed := by
  decide +kernel

theorem witness_DisturbedDriverReturnsNoDigest :
    parseNumeral ['1'] = .ok 1 ∧ parseNumeral ['2'] = .ok 2 ∧
      ∃ s1 s2, wait 9 disturbed = .ok s1 ∧ loadRun 9 .hash (narrow 1) (narrow 2) s1 = .ok s2 ∧ s2.err ≠ .ok ∧
        s2.settling = false ∧ OnlyReads s2 := by
  refine ⟨rfl, rfl, ?_⟩
  have h : ((value? (wait 9 disturbed)).bind fun s1 => value? (loadRun 9 .hash (narrow 1) (narrow 2) s1)).any
      (fun s2 => s2.err == .busy && !s2.settling && s2.port.isEmpty) = true := by decide +kernel
  cases h1 : wait 9 disturbed with
  | error e => simp [h1, value?] at h
  | ok s1 =>
    cases h2 : loadRun 9 .hash (narrow 1) (narrow 2) s1 with
    | error e => simp [h1, h2, value?] at h
    | ok s2 =>
      simp only [h1, h2, value?, Option.bind_some, Option.any_some, Bool.and_eq_true, beq_iff_eq, Bool.not_eq_true',
        List.isEmpty_iff] at h
      exact ⟨s1, s2, rfl, h2, by rw [h.1.1]; decide, h.1.2, fun c hc => by rw [h.2] at hc; cases hc⟩

end Sys2Proof.Tests
end

section
/-! The reset values of 10_state.md R33. -/

namespace Sys2Proof.Machine

/-- RCNT = 8 in bits 11 to 8, and every other field of the word 0 (10_state.md R26, R33). -/
@[simp] theorem statusWord_reset : statusWord State.reset = 0x00000800#32 := by decide

/-- Settles O10: the registers are the fields of `State.reset`, and `statusWord_reset` is the STATUS word. -/
theorem resetStateHoldsTheSpecValues : Obligations.ResetStateHoldsTheSpecValues :=
  ⟨rfl, rfl, rfl, rfl, rfl, rfl, rfl, rfl, rfl, rfl, statusWord_reset⟩

end Sys2Proof.Machine
end

section
/-! The eight words of a 256-bit register and the value they assemble to (20_memory.md R42). -/

namespace Sys2Proof.Machine

/-- The first `n` 32-bit words of a number, at their weights, are its remainder modulo 2^(32n). -/
theorem sum_words_eq_mod (v n : Nat) :
    ∑ k ∈ Finset.range n, v / 2 ^ (32 * k) % 2 ^ 32 * 2 ^ (32 * k) = v % 2 ^ (32 * n) := by
  induction n with
  | zero => simp [Nat.mod_one]
  | succ n ih =>
    rw [Finset.sum_range_succ, ih, Nat.mul_succ, pow_add, Nat.mod_mul, Nat.mul_comm (2 ^ (32 * n))]

/-- `assemble` as a sum over the word numbers: the order of the addition does not show. -/
theorem assemble_eq_sum (w : Fin 8 → Word) : assemble w = ∑ k : Fin 8, (w k).toNat * 2 ^ (32 * k.val) := by
  rw [Fin.sum_univ_def]; rfl

/-- What a host assembles from the words of a register is the register (R42). -/
@[simp] theorem assemble_regWord (v : Reg256) : assemble (regWord v) = v.toNat := by
  calc assemble (regWord v)
      = ∑ k : Fin 8, v.toNat / 2 ^ (32 * k.val) % 2 ^ 32 * 2 ^ (32 * k.val) := by
        simp only [assemble_eq_sum, regWord_toNat]
    _ = v.toNat % 2 ^ (32 * 8) := by
        rw [← sum_words_eq_mod, Finset.sum_range]
    _ = v.toNat := Nat.mod_eq_of_lt v.isLt

/-- Settles O42: the bits of a word are `regWord_toNat`, the value of the eight is `assemble_regWord`, and their places
are `targetOf_word`. -/
theorem eightWordsAssembleTheRegister : Obligations.EightWordsAssembleTheRegister :=
  ⟨fun v => ⟨regWord_toNat v, assemble_regWord v⟩, targetOf_word⟩

end Sys2Proof.Machine
end

section
/-! The decoder on all words, by the fields of a word and the opcode map (30_encoding.md R60, R62, R63). -/

namespace Sys2Proof

@[simp] theorem CW.ofWord_op_toNat (w : Word) : (CW.ofWord w).op.toNat = w.toNat % 16 := by
  simp [CW.ofWord]

@[simp] theorem CW.ofWord_rsv_toNat (w : Word) : (CW.ofWord w).rsv.toNat = w.toNat / 16 := by
  have := w.isLt
  simp only [CW.ofWord, BitVec.extractLsb'_toNat, Nat.shiftRight_eq_div_pow]
  omega

/-- A word's reserved bits are clear when nothing of it is left above the opcode. -/
theorem CW.ofWord_rsv_eq_zero_iff (w : Word) : (CW.ofWord w).rsv = 0 ↔ w.toNat / 16 = 0 := by
  rw [← BitVec.toNat_inj, CW.ofWord_rsv_toNat]; rfl

theorem Instr.opcode_toNat_lt (i : Instr) : i.opcode.toNat < 6 := by
  cases i <;> decide

/-- An opcode is a command's when it is the one the map gives that command. -/
theorem ofOpcode_eq_some_iff {op : BitVec 4} {i : Instr} : ofOpcode op = some i ↔ op.toNat = i.opcode.toNat := by
  constructor
  · intro h
    unfold ofOpcode at h
    split at h <;> cases h <;> assumption
  · intro h
    rw [BitVec.eq_of_toNat_eq h]
    cases i <;> rfl

/-- The reserved opcodes are those from 6 on. -/
theorem ofOpcode_eq_none_iff {op : BitVec 4} : ofOpcode op = none ↔ 6 ≤ op.toNat := by
  unfold ofOpcode
  split
  case h_7 => simp only [imp_false, true_iff] at *; omega
  all_goals simp [*]

/-- The decoder once the reserved bits are known to be clear. -/
theorem decode_of_div_eq_zero {w : Word} (h : w.toNat / 16 = 0) :
    decode w = (ofOpcode (CW.ofWord w).op).elim (.error .reservedOpcode) .ok := by
  simp only [decode, ne_eq, CW.ofWord_rsv_eq_zero_iff, h, not_true_eq_false, if_false]
  cases ofOpcode (CW.ofWord w).op <;> rfl

theorem decode_of_div_ne_zero {w : Word} (h : w.toNat / 16 ≠ 0) : decode w = .error .reservedBits :=
  if_pos (mt (CW.ofWord_rsv_eq_zero_iff w).1 h)

theorem decode_of_reserved_opcode {w : Word} (h : w.toNat / 16 = 0) (h6 : 6 ≤ w.toNat) :
    decode w = .error .reservedOpcode := by
  have hop : ofOpcode (CW.ofWord w).op = none := by
    rw [ofOpcode_eq_none_iff, CW.ofWord_op_toNat]; omega
  rw [decode_of_div_eq_zero h, hop]; rfl

/-- A word is a command exactly when it is the command's opcode as a number: this excludes reserved bits. -/
theorem decode_eq_ok_iff {w : Word} {i : Instr} : decode w = .ok i ↔ w.toNat = i.opcode.toNat := by
  have hi := i.opcode_toNat_lt
  by_cases h : w.toNat / 16 = 0
  · have hop : ofOpcode (CW.ofWord w).op = some i ↔ w.toNat = i.opcode.toNat := by
      rw [ofOpcode_eq_some_iff, CW.ofWord_op_toNat, Nat.mod_eq_of_lt (by omega)]
    rw [← hop, decode_of_div_eq_zero h]
    cases ofOpcode (CW.ofWord w).op <;> simp
  · rw [decode_of_div_ne_zero h]
    simp only [reduceCtorEq, false_iff]
    omega

/-- Settles O1: the two kinds of illegal word, and `decode_eq_ok_iff` at each of the six commands. -/
theorem decoderIsTheSpecs : Obligations.DecoderIsTheSpecs := fun _ =>
  ⟨decode_of_div_ne_zero, decode_of_reserved_opcode, decode_eq_ok_iff, decode_eq_ok_iff, decode_eq_ok_iff,
    decode_eq_ok_iff, decode_eq_ok_iff, decode_eq_ok_iff⟩

end Sys2Proof
end

section
/-! The round constants, and how far the digest depends on its inputs (41_permutation.md R101, R102, R111). -/

namespace Sys2Proof.Machine

/-- Every round constant is a field element: none is above 7 + 30 (R102). -/
theorem rc_inFp {r : Nat} (h : r < 8) : (rc r).InFp := by
  have hP : 7 + 30 < P := by decide
  unfold rc
  split
  · exact ⟨by simp only; omega, by simp only; omega, by simp only; omega⟩
  · exact ⟨by simp only; omega, by simp only; omega, by simp only; omega⟩

/-- Settles O19: the two tables are evaluated, and `rc_inFp` bounds their entries. -/
theorem roundTypesAndConstants : Obligations.RoundTypesAndConstants :=
  ⟨by decide, by decide, fun _ => rc_inFp⟩

theorem initTriple_congr {x y x' y' : Nat} (hx : x % P = x' % P) (hy : y % P = y' % P) :
    initTriple x y = initTriple x' y' := by
  simp only [initTriple, fred, hx, hy]

theorem perm_inFp {v : Triple} (h : v.InFp) : (perm v).InFp := permFrom_inFp 0 h

/-- The digest is a function of the residues of its inputs (R111). -/
theorem H_congr {x y x' y' : Nat} (hx : x % P = x' % P) (hy : y % P = y' % P) : H x y = H x' y' :=
  congrArg (fun v => (perm v).s0) (initTriple_congr hx hy)

theorem H_lt (x y : Nat) : H x y < P := (perm_inFp (initTriple_inFp x y)).1

/-- P is a second name of the input 0 (R111). -/
theorem H_P_zero : H P 0 = H 0 0 := H_congr (Nat.mod_self P) rfl

/-- Settles O23: the initial triple holds the residues only, and the rounds keep it in Fp. -/
theorem digestDependsOnResidues : Obligations.DigestDependsOnResidues :=
  ⟨fun _ _ _ _ => H_congr, H_lt, H_P_zero⟩

end Sys2Proof.Machine
end

section
/-! A command from its acceptance to its completion, when the host only waits (70_reset_and_hazards.md R176, R177). -/

namespace Sys2Proof.Machine

/-! The record through the engine's progress -/

/-- The engine's progress leaves the captured operands and what the work will end with (10_state.md R30). -/
theorem Op.Faithful.advance {op : Op} {s : State} (h : op.Faithful s) : op.advance.Faithful s := by
  cases op with
  | nop => exact h
  | init x y => exact h
  | round v k w => obtain ⟨hv, hk, hw⟩ := h; exact ⟨hv, hk, (roundWork_finish_advance _ w).trans hw⟩
  | permute v k w => obtain ⟨hv, hk, hw⟩ := h; exact ⟨hv, hk, (roundWork_finish_advance _ w).trans hw⟩
  | hash x y w => obtain ⟨hx, hy, hw⟩ := h; exact ⟨hx, hy, (roundWork_finish_advance _ w).trans hw⟩
  | modpow b e w =>
    obtain ⟨hb, he, hw⟩ := h
    refine ⟨hb, he, ?_⟩
    split
    · exact hw
    · rename_i h0; exact (finish_turn h0).trans hw

theorem Op.Faithful.advanceN {op : Op} {s : State} (h : op.Faithful s) (n : Nat) : (op.advanceN n).Faithful s := by
  induction n generalizing op with
  | zero => exact h
  | succ n ih => exact ih h.advance

/-- What a record promises is said in terms of its operands, which the progress leaves. -/
theorem Op.result_advance (s t : State) (op : Op) : op.advance.Result s t ↔ op.Result s t := by
  cases op <;> exact Iff.rfl

theorem Op.result_advanceN (s t : State) (op : Op) (n : Nat) : (op.advanceN n).Result s t ↔ op.Result s t := by
  induction n generalizing op with
  | zero => exact Iff.rfl
  | succ n ih => exact (ih _).trans (op.result_advance s t)

/-- A completion uses neither the record nor the answer of the state it is performed on. -/
theorem complete_with_record_answer (op : Op) (s : State) (f : Option InFlight) (a : Option Answer) :
    complete op { s with inflight := f, answer := a } = { complete op s with answer := a } := by
  cases op <;> rfl

/-! Waiting -/

/-- A cycle in which the outside does nothing is the engine's part alone. -/
theorem step_of_quiet {s : State} (hset : s.settling = false) (hp : s.port = []) :
    step s = .next { tick s with answer := none } := by
  have hset' : (tick s).settling = false := by rw [tick_settling, hset]
  simp only [step, nextCycle_nil hp, cycle]
  rw [← hset']

/-- After its latency a command in flight completes, with the progress it has made by then. -/
theorem runFor_completes {s : State} {op : Op} (n : Nat) (hset : s.settling = false) (hp : s.port = [])
    (hf : s.inflight = some ⟨op, n + 1⟩) :
    runFor (n + 1) s = .next { complete (op.advanceN n) s with answer := none } := by
  induction n generalizing s op with
  | zero =>
    have htick : tick s = complete op s := by simp [tick, hf]
    rw [runFor_succ_of_next (step_of_quiet hset hp), htick]; rfl
  | succ n ih =>
    have htick : tick s = { s with inflight := some ⟨op.advance, n + 1⟩ } := by simp [tick, hf]
    calc runFor (n + 1 + 1) s
        = runFor (n + 1) { s with inflight := some ⟨op.advance, n + 1⟩, answer := none } := by
          rw [runFor_succ_of_next (step_of_quiet hset hp), htick]
      _ = .next { complete (op.advance.advanceN n)
            { s with inflight := some ⟨op.advance, n + 1⟩, answer := none } with answer := none } := ih hset hp rfl
      _ = .next { complete (op.advanceN (n + 1)) s with answer := none } := by
          rw [complete_with_record_answer]; rfl

/-! Acceptance -/

theorem exec_of_busy (i : Instr) {s : State} (h : s.busy = true) : exec i s = .next (reject .busy s) := by
  rcases exec_cases i s with ⟨_, he⟩ | ⟨hb, _⟩ | ⟨hb, _⟩
  · exact he
  · rw [h] at hb; cases hb
  · rw [h] at hb; cases hb

theorem whenIdle_of_idle {s : State} (h : s.busy = false) (k : Host.Outcome State Fault Refusal) :
    whenIdle s k = k := by
  simp [whenIdle, h]

theorem exec_nop_of_idle {s : State} (h : s.busy = false) :
    exec .nop s = .next (accept (latNop s.params) .nop s) :=
  whenIdle_of_idle h _

theorem exec_init_of_idle {s : State} (h : s.busy = false) :
    exec .init s = .next (accept (latInit s.params) (captureInit s) s) :=
  whenIdle_of_idle h _

theorem exec_hash_of_idle {s : State} (h : s.busy = false) :
    exec .hash s = .next (accept (latHash s.params) (captureHash s) s) :=
  whenIdle_of_idle h _

theorem nop_faithful (s : State) : Op.nop.Faithful s := trivial

theorem captureInit_faithful (s : State) : (captureInit s).Faithful s := ⟨rfl, rfl⟩

theorem captureHash_faithful (s : State) : (captureHash s).Faithful s :=
  ⟨rfl, rfl, roundWork_finish_start _ _ _⟩

/-- Acceptance leaves the registers that a record's operands are compared with. -/
theorem Op.Faithful.accept {op : Op} {s : State} (h : op.Faithful s) (n : Nat) (op' : Op) :
    op.Faithful (Machine.accept n op' s) := by
  cases op <;> exact h

/-- A command accepted with a faithful record ends, when the host waits for its latency, with its result, and changes
nothing but the data registers, RCNT, ERR, BUSY, the record and the answer. -/
theorem runCommand_of_accept {i : Instr} {op : Op} {s : State} {n : Nat} (hq : QuietIdle s) (hop : op.Faithful s)
    (hexec : exec i s = .next (accept (n + 1) op s)) :
    ∃ t, runCommand (n + 1) i s = .next t ∧ op.Result s t ∧
      t = { s with s0 := t.s0, s1 := t.s1, s2 := t.s2, res := t.res, rcnt := t.rcnt, err := .ok, busy := false,
                   inflight := none, answer := none } := by
  obtain ⟨-, hset, hp⟩ := hq
  refine ⟨{ complete (op.advanceN n) (accept (n + 1) op s) with answer := none }, ?_, ?_, ?_⟩
  · simp only [runCommand, hexec]
    exact runFor_completes n hset hp rfl
  · exact (op.result_advanceN _ _ n).1 (complete_result ((hop.accept _ _).advanceN n))
  · exact congrArg (fun u : State => { u with answer := none }) (complete_frame (op.advanceN n) _)

theorem triple_eq_triple_iff {s t : State} : t.triple = s.triple ↔ t.s0 = s.s0 ∧ t.s1 = s.s1 ∧ t.s2 = s.s2 := by
  simp only [State.triple, Triple.mk.injEq, BitVec.toNat_inj]

end Sys2Proof.Machine
end

section
/-! NOP, INIT and HASH from acceptance to completion (41_permutation.md R120, R123, R124). -/

namespace Sys2Proof.Machine

/-- Settles O24: the result of NOP is that every data register stays. -/
theorem nopClearsErrAndNothingElse : Obligations.NopClearsErrAndNothingElse := by
  refine ⟨decode_eq_ok_iff.2 rfl, fun s => ⟨exec_of_busy .nop, exec_nop_of_idle, fun hq => ?_⟩⟩
  obtain ⟨t, hrun, ⟨-, -, -, -, htriple, hrcnt, hres⟩, ht⟩ :=
    runCommand_of_accept hq (nop_faithful s) (exec_nop_of_idle hq.1)
  obtain ⟨h0, h1, h2⟩ := triple_eq_triple_iff.1 htriple
  rw [h0, h1, h2, hrcnt, hres] at ht
  exact hrun.trans (congrArg _ ht)

/-- Settles O25: the result of INIT is the initial triple of the captured inputs. -/
theorem initLoadsTheReducedInputs : Obligations.InitLoadsTheReducedInputs := by
  refine ⟨decode_eq_ok_iff.2 rfl, Nat.mod_self P, by decide,
    fun s => ⟨exec_of_busy .init, exec_init_of_idle, fun hq => ?_⟩⟩
  obtain ⟨t, hrun, ⟨-, -, -, -, htriple, hrcnt, hres⟩, ht⟩ :=
    runCommand_of_accept hq (captureInit_faithful s) (exec_init_of_idle hq.1)
  rw [hrcnt, hres] at ht
  exact ⟨t, hrun, congrArg Triple.s0 htriple, congrArg Triple.s1 htriple, congrArg Triple.s2 htriple, ht⟩

theorem H_zero_zero :
    H 0 0 = 3726168635605505378214265510820414452620660667547784670125577659766201037750 := by
  decide

theorem H_one_two :
    H 1 2 = 12549028707974041819487093793818750400883759195492777583506602954624394362327 := by
  decide

/-- Settles O28: the result of HASH is the permutation of the initial triple, whose first element is the digest. -/
theorem hashRunsToTheDigest : Obligations.HashRunsToTheDigest := by
  refine ⟨decode_eq_ok_iff.2 rfl, fun s => ⟨exec_of_busy .hash, exec_hash_of_idle, fun hq => ?_⟩,
    H_zero_zero, H_one_two, H_P_zero⟩
  obtain ⟨t, hrun, ⟨-, -, -, -, htriple, hrcnt, hres⟩, ht⟩ :=
    runCommand_of_accept hq (captureHash_faithful s) (exec_hash_of_idle hq.1)
  rw [hrcnt, hres] at ht
  exact ⟨t, hrun, htriple, congrArg Triple.s0 htriple, ht⟩

end Sys2Proof.Machine
end

section
/-! A transaction that passes or fails the bus checks, and the bus errors (60_exceptions.md R153, 20_memory.md R46,
R47). -/

namespace Sys2Proof.Machine

theorem perform_read_of_busError {s : State} {addr size : Nat} (h : busSelect s.base addr size = .busError) :
    perform (.read addr size) s = .next (busErrorRead s) := by
  simp only [perform, h]

theorem perform_write_of_busError {s : State} {addr size : Nat} (w : Word)
    (h : busSelect s.base addr size = .busError) : perform (.write addr size w) s = .next (busErrorWrite s) := by
  simp only [perform, h]

theorem perform_write_of_target {s : State} {addr size : Nat} {t : Target} (w : Word)
    (h : busSelect s.base addr size = .target t) : perform (.write addr size w) s = writeTarget t w s := by
  simp only [perform, h]

/-- A wrong size, a misaligned offset and an unmapped one fail the bus checks, for reads and writes alike (R153). -/
theorem busSelect_eq_busError (base : Nat) {off size : Nat} (hoff : off < 0x100)
    (h : size ≠ 4 ∨ off % 4 ≠ 0 ∨ 0xC8 ≤ off) : busSelect base (base + off) size = .busError := by
  rw [busSelect_offset base size hoff]
  split
  · rfl
  · have hunmapped : 0xC8 ≤ off := by omega
    rw [targetOf_unmapped hunmapped]; rfl

/-- From offset 0x40 on the only writable target is CMD, so a write elsewhere is a bus error (R46, R153). -/
theorem perform_write_of_readOnly {s : State} {off size : Nat} (w : Word) (hoff : off < 0x100)
    (h : (0x40 ≤ off ∧ off < 0xC0) ∨ (0xC4 ≤ off ∧ off < 0xC8)) :
    perform (.write (s.base + off) size w) s = .next (busErrorWrite s) := by
  by_cases hbus : size ≠ 4 ∨ off % 4 ≠ 0
  · exact perform_write_of_busError w (busSelect_eq_busError _ hoff (by omega))
  obtain ⟨rfl, h4⟩ : size = 4 ∧ off % 4 = 0 := by omega
  rcases targetOf_cases off h4 with ⟨b, k, rfl, -⟩ | ⟨rfl, -⟩ | ⟨rfl, -⟩ | ⟨hunmapped, -⟩
  · rw [← Nat.add_assoc, perform_write_of_target w (busSelect_word s.base b k)]
    have hk := k.isLt
    cases b with
    | in0 => simp only [bankOffset] at h; omega
    | in1 => simp only [bankOffset] at h; omega
    | s0 => rfl
    | s1 => rfl
    | s2 => rfl
    | res => rfl
  · omega
  · exact perform_write_of_target w (busSelect_status s.base)
  · omega

/-- Settles O46: the failed bus checks are `busSelect_eq_busError`, the read-only registers
`perform_write_of_readOnly`. -/
theorem busErrorsChangeNothing : Obligations.BusErrorsChangeNothing := by
  intro s rest off size w hoff
  rw [← ready_base s rest]
  constructor
  · intro hn hbus
    exact (step_of_transaction hn).trans (perform_read_of_busError (busSelect_eq_busError _ hoff hbus))
  · intro hn hbus
    rw [step_of_transaction hn]
    by_cases hsel : size ≠ 4 ∨ off % 4 ≠ 0 ∨ 0xC8 ≤ off
    · exact perform_write_of_busError w (busSelect_eq_busError _ hoff hsel)
    · exact perform_write_of_readOnly w hoff (by omega)

end Sys2Proof.Machine
end

section
/-! A word written to CMD: which command is accepted, and in which order a word is rejected (60_exceptions.md R151,
R155). -/

namespace Sys2Proof.Machine

theorem submit_of_ok {w : Word} {i : Instr} (h : decode w = .ok i) (s : State) : submit w s = exec i s := by
  simp only [submit, h]

/-- BUSY comes before every other reason to reject a word. -/
theorem submit_of_busy (w : Word) {s : State} (h : s.busy = true) : submit w s = .next (reject .busy s) := by
  cases hd : decode w with
  | ok i => rw [submit_of_ok hd, exec_of_busy i h]
  | error e => simp [submit, hd, h]

theorem submit_of_illegal {w : Word} {s : State} (hb : s.busy = false) (h : ∀ i, decode w ≠ .ok i) :
    submit w s = .next (reject .illegal s) := by
  cases hd : decode w with
  | ok i => exact absurd hd (h i)
  | error e => simp [submit, hd, hb]

theorem exec_of_no_round_left {i : Instr} {s : State} (hb : s.busy = false) (hi : i = .round ∨ i = .permute)
    (hr : s.rcnt = 8) : exec i s = .next (reject .seq s) := by
  rcases exec_cases i s with ⟨hbusy, -⟩ | ⟨-, -, -, he⟩ | ⟨-, hnot, -⟩
  · rw [hb] at hbusy; cases hbusy
  · exact he
  · exact absurd ⟨hi, hr⟩ hnot

/-- An idle block accepts a command that does not lack a round, with a faithful record and its latency. -/
theorem exec_accepts {i : Instr} {s : State} (hb : s.busy = false)
    (h : ¬ ((i = .round ∨ i = .permute) ∧ s.rcnt = 8)) :
    ∃ op, op.instr = i ∧ op.Faithful s ∧ exec i s = .next (accept (latency i s) op s) := by
  rcases exec_cases i s with ⟨hbusy, -⟩ | ⟨-, hi, hr, -⟩ | ⟨-, -, op, n, hop, rfl, -, hf, he⟩
  · rw [hb] at hbusy; cases hbusy
  · exact absurd ⟨hi, hr⟩ h
  · exact ⟨op, hop, hf, he⟩

/-- The write passes the bus checks, so the port answers OKAY and the word is submitted. -/
theorem step_write_cmd {s : State} {rest : List Cycle} {w : Word}
    (hn : NextTransaction s (.write (s.base + 0xC0) 4 w) rest) :
    step s = submit w (answerWrite .okay (ready s rest)) := by
  have hsel : busSelect (ready s rest).base (s.base + 0xC0) 4 = .target .cmd := by
    rw [ready_base, busSelect_cmd]
  exact (step_of_transaction hn).trans (perform_write_of_target w hsel)

/-- Settles O6: the write submits the word, and the four outcomes are those of `submit` and `exec`. -/
theorem commandAcceptanceAndPriority : Obligations.CommandAcceptanceAndPriority := by
  intro s rest w hn
  rw [step_write_cmd hn]
  refine ⟨submit_of_busy w, submit_of_illegal, fun i hb hd => ?_⟩
  rw [submit_of_ok hd]
  refine ⟨exec_of_no_round_left hb, fun hround => ?_⟩
  obtain ⟨op, hop, hf, he⟩ := exec_accepts hb hround
  exact ⟨⟨op, latency i (answerWrite .okay (ready s rest))⟩, hop, hf, rfl, he⟩

end Sys2Proof.Machine
end

section
/-! A step by the kind of the listed cycle: with `rst_n` = 0 or 1, with a transaction or without (70_reset_and_hazards.md
R170, R171). -/

namespace Sys2Proof.Machine

theorem step_of_port_cons {s : State} {c : Cycle} {rest : List Cycle} (h : s.port = c :: rest) :
    step s = cycle c { s with port := rest } := by
  rw [step, nextCycle_cons h]

theorem step_of_transaction_in_reset {s : State} {t : Transaction} {rest : List Cycle}
    (h : s.port = ⟨false, some t⟩ :: rest) : step s = .refused .transactionDuringReset :=
  step_of_port_cons h

theorem step_of_transaction_while_settling {s : State} {t : Transaction} {rest : List Cycle}
    (h : s.port = ⟨true, some t⟩ :: rest) (hset : s.settling = true) :
    step s = .refused .transactionInFirstCycle := by
  rw [step_of_port_cons h]
  exact if_pos hset

theorem step_of_reset_cycle {s : State} {rest : List Cycle} (h : s.port = ⟨false, none⟩ :: rest) :
    step s = .next (assertReset { s with port := rest }) :=
  step_of_port_cons h

theorem step_of_idle_cycle {s : State} {rest : List Cycle} (h : s.port = ⟨true, none⟩ :: rest) :
    step s = .next { ready s rest with settling := false, answer := none } :=
  step_of_port_cons h

/-- Settles O8: one step lemma per kind of cycle; a reset cycle leaves the block settling, and a cycle out of reset
without a transaction ends that. -/
theorem transactionsAroundResetAreRefused : Obligations.TransactionsAroundResetAreRefused := by
  intro s t rest
  exact ⟨step_of_transaction_in_reset, step_of_transaction_while_settling,
    fun h => ⟨_, step_of_reset_cycle h, assertReset_settling _⟩,
    fun h => ⟨_, step_of_idle_cycle h, rfl⟩⟩

end Sys2Proof.Machine
end

section
/-! Encoding after decoding, and decoding after encoding (30_encoding.md R60, R62). -/

namespace Sys2Proof

/-- A command's word is its opcode as a number: RSV is 0 (R62). -/
@[simp] theorem encode_toNat (i : Instr) : (encode i).toNat = i.opcode.toNat := by
  cases i <;> rfl

theorem decode_encode (i : Instr) : decode (encode i) = .ok i := decode_eq_ok_iff.2 (encode_toNat i)

theorem eq_encode_of_decode {w : Word} {i : Instr} (h : decode w = .ok i) : w = encode i := by
  rw [decode_eq_ok_iff, ← encode_toNat] at h
  exact BitVec.eq_of_toNat_eq h

theorem encode_wellFormed (i : Instr) : (CW.ofWord (encode i)).wellFormed = true := by
  cases i <;> rfl

/-- Settles O2: both directions are `decode_eq_ok_iff`, since a command's word is its opcode as a number. -/
theorem decodeAndEncodeAgree : Obligations.DecodeAndEncodeAgree :=
  ⟨fun i => ⟨decode_encode i, encode_wellFormed i⟩, fun _ _ => eq_encode_of_decode⟩

/-- Settles O3: the six words are the opcodes, and 6 and 0x14 fall under the two kinds of illegal word. -/
theorem opcodeMapWordsDecode : Obligations.OpcodeMapWordsDecode :=
  ⟨decode_encode .nop, decode_encode .init, decode_encode .round, decode_encode .permute, decode_encode .hash,
    decode_encode .modpow, decode_of_reserved_opcode (by decide) (by decide), decode_of_div_ne_zero (by decide)⟩

end Sys2Proof
end

section
/-! Which cycles make a next state (70_reset_and_hazards.md R170, R171, 20_memory.md R41), and the step of a command
written to CMD. -/

namespace Sys2Proof.Machine

/-- Settles O4: the write submits the word, and a legal word is decided by its command's `exec`. -/
theorem stepRunsTheDecodedCommand : Obligations.StepRunsTheDecodedCommand :=
  fun _ _ _ _ hn hd => (step_write_cmd hn).trans (submit_of_ok hd _)

/-- A placed command's word is the transaction of the very next cycle. -/
theorem nextTransaction_withFetchWord (s : State) (w : Word) :
    NextTransaction (s.withFetchWord 32 w.toNat) (.write (s.base + 0xC0) 4 w) s.port := by
  have hw : BitVec.ofNat 32 (w.toNat % 2 ^ 32) = w := by
    rw [Nat.mod_eq_of_lt w.isLt, BitVec.ofNat_toNat, BitVec.setWidth_eq]
  exact ⟨by rw [State.withFetchWord, hw]; rfl, rfl⟩

/-- Settles O5: the placed write is the next transaction, so O4's step lemma applies to it. -/
theorem placedCommandIsTheNextStep : Obligations.PlacedCommandIsTheNextStep := fun s w _ hd =>
  (step_write_cmd (nextTransaction_withFetchWord s w)).trans (submit_of_ok hd _)

theorem perform_of_not_inWindow {x : Transaction} {s : State} (h : ¬ InWindow s x.addr) :
    perform x s = .fault .addressOutsideWindow := by
  cases x with
  | read addr size =>
    have hsel : busSelect s.base addr size = .outside := busSelect_outside size h
    simp only [perform, hsel]
  | write addr size w =>
    have hsel : busSelect s.base addr size = .outside := busSelect_outside size h
    simp only [perform, hsel]

/-- A write to any target is answered: the only stop is at an address outside the window. -/
theorem exists_writeTarget_next (x : Target) (w : Word) (s : State) : ∃ t, writeTarget x w s = .next t := by
  cases x with
  | word b k => cases b <;> exact ⟨_, rfl⟩
  | cmd => obtain ⟨t, ht, -⟩ := submit_next w (answerWrite .okay s); exact ⟨t, ht⟩
  | status => exact ⟨_, rfl⟩

theorem busSelect_ne_outside {s : State} {addr : Nat} (size : Nat) (h : InWindow s addr) :
    busSelect s.base addr size ≠ .outside := by
  obtain ⟨off, rfl⟩ := Nat.exists_eq_add_of_le h.1
  rw [busSelect_offset _ _ (by have := h.2; omega)]
  split
  · exact nofun
  · cases targetOf off <;> exact nofun

theorem exists_perform_next {x : Transaction} {s : State} (h : InWindow s x.addr) : ∃ t, perform x s = .next t := by
  cases x with
  | read addr size => obtain ⟨a, d, ht⟩ := perform_read size h; exact ⟨_, ht⟩
  | write addr size w =>
    cases hsel : busSelect s.base addr size with
    | outside => exact absurd hsel (busSelect_ne_outside size h)
    | busError => exact ⟨_, perform_write_of_busError w hsel⟩
    | target y => rw [perform_write_of_target w hsel]; exact exists_writeTarget_next y w s

theorem exists_perform_next_iff {x : Transaction} {s : State} : (∃ t, perform x s = .next t) ↔ InWindow s x.addr := by
  refine ⟨fun ⟨t, ht⟩ => ?_, exists_perform_next⟩
  by_contra h
  rw [perform_of_not_inWindow h] at ht
  cases ht

theorem inWindow_tick {s : State} {addr : Nat} : InWindow (tick s) addr ↔ InWindow s addr := by
  simp only [InWindow, tick_base]

/-- A cycle stops only for its transaction: in reset, in the first cycle after it, or outside the window. -/
theorem exists_cycle_next_iff (c : Cycle) (s : State) : (∃ t, cycle c s = .next t) ↔ ¬ Stops s c := by
  obtain ⟨rstN, _ | x⟩ := c
  · have hnext : ∃ t, cycle ⟨rstN, none⟩ s = .next t := by cases rstN <;> exact ⟨_, rfl⟩
    simp [hnext, Stops]
  · cases rstN with
    | false => simp [cycle, Stops]
    | true => cases hset : s.settling <;> simp [cycle, Stops, hset, exists_perform_next_iff, inWindow_tick]

/-- Settles O7: the cycle before the step is taken differs from the state in the inputs still to come only. -/
theorem onlyTheseCyclesStop : Obligations.OnlyTheseCyclesStop := by
  intro s
  obtain ⟨rest, hrest⟩ := nextCycle_snd s
  rw [step, exists_cycle_next_iff, hrest]
  exact Iff.rfl

/-- Settles O9: the transaction is performed on a state with the same window. -/
theorem addressesOutsideTheWindowFault : Obligations.AddressesOutsideTheWindowFault := by
  intro s t rest hn h
  rw [step_of_transaction hn, perform_of_not_inWindow]
  simpa only [InWindow, ready_base] using h

/-- Settles O11: the step is `assertReset`, whose fields are those of the reset state. -/
theorem resetCycleAbandonsTheCommand : Obligations.ResetCycleAbandonsTheCommand := fun _ _ h =>
  ⟨_, step_of_reset_cycle h, rfl, rfl, rfl, rfl, rfl, rfl, rfl, rfl, rfl, rfl, rfl, rfl⟩

end Sys2Proof.Machine
end

section
/-! What one step does to the block, said once: a reset cycle, or the engine's part followed by a read, a bus error or
nothing, a write to an input register, or a command word (20_memory.md R44, R45, 60_exceptions.md R155). -/

namespace Sys2Proof.Machine

theorem nextCycle_snd_eq (s : State) : (nextCycle s).2 = { s with port := s.port.tail } := by
  cases hp : s.port with
  | nil => rw [nextCycle_nil hp, List.tail_nil, ← hp]
  | cons c rest => rw [nextCycle_cons hp, List.tail_cons]

/-- The state once the engine has had its part of the next cycle and that cycle is off the list, with what the port
shows after it: the settling mark, the answer and the draw counter. -/
def State.afterEngine (s : State) (settling : Bool) (answer : Option Answer) (draws : Nat) : State :=
  { tick s with settling := settling, port := s.port.tail, answer := answer, draws := draws }

/-- Everything a step from `s` that makes a next state can make. -/
inductive StepEffect (s : State) : State → Prop
  | reset : ResetCycle s → StepEffect s (assertReset { s with port := s.port.tail })
  | engine (b : Bool) (a : Option Answer) (d : Nat) : StepEffect s (s.afterEngine b a d)
  | inputRefused (b : Bool) (a : Option Answer) (d : Nat) {x : Bank} {k : Fin 8} {w : Word} :
      x = .in0 ∨ x = .in1 → WriteCycle s (.word x k) w → (tick s).busy = true →
      StepEffect s (reject .busy (s.afterEngine b a d))
  | in0Written (b : Bool) (a : Option Answer) (d : Nat) {k : Fin 8} {w : Word} :
      WriteCycle s (.word .in0 k) w → (tick s).busy = false →
      StepEffect s { s.afterEngine b a d with in0 := setRegWord s.in0 k w }
  | in1Written (b : Bool) (a : Option Answer) (d : Nat) {k : Fin 8} {w : Word} :
      WriteCycle s (.word .in1 k) w → (tick s).busy = false →
      StepEffect s { s.afterEngine b a d with in1 := setRegWord s.in1 k w }
  | rejected (b : Bool) (a : Option Answer) (d : Nat) (c : ErrCode) {w : Word} :
      WriteCycle s .cmd w → StepEffect s (reject c (s.afterEngine b a d))
  | accepted (b : Bool) (a : Option Answer) (d : Nat) {w : Word} {op : Op} {n : Nat} :
      WriteCycle s .cmd w → (tick s).busy = false → decode w = .ok op.instr → 1 ≤ n → op.Faithful (tick s) →
      StepEffect s (accept n op (s.afterEngine b a d))

/-- A record is compared with the inputs, the state triple and RCNT only. -/
theorem Op.Faithful.congr {op : Op} {s t : State} (h : op.Faithful s) (h0 : t.in0 = s.in0) (h1 : t.in1 = s.in1)
    (hv : t.triple = s.triple) (hr : t.rcnt = s.rcnt) : op.Faithful t := by
  cases op with
  | nop => trivial
  | _ => simpa only [Op.Faithful, h0, h1, hv, hr] using h

/-- A transaction performed after the engine's part is one of the effects. -/
theorem stepEffect_of_perform {s t : State} {x : Transaction} (hc : (nextCycle s).1 = ⟨true, some x⟩)
    (h : perform x { tick s with port := s.port.tail } = .next t) : StepEffect s t := by
  have hbase : State.base { tick s with port := s.port.tail } = s.base := tick_base s
  rcases perform_cases h with ht | ⟨addr, k, w, rfl, hsel, hb, rfl⟩ | ⟨addr, k, w, rfl, hsel, hb, rfl⟩ |
    ⟨addr, k, w, rfl, hsel, hb, rfl⟩ | ⟨addr, w, rfl, hsel, hsub⟩
  · rw [ht]; exact .engine (tick s).settling t.answer t.draws
  · rw [hbase] at hsel
    rcases hsel with hsel | hsel
    · exact .inputRefused (tick s).settling _ (tick s).draws (.inl rfl) ⟨addr, hc, hsel⟩ hb
    · exact .inputRefused (tick s).settling _ (tick s).draws (.inr rfl) ⟨addr, hc, hsel⟩ hb
  · rw [hbase] at hsel
    rw [show State.in0 { tick s with port := s.port.tail } = s.in0 from tick_in0 s]
    exact .in0Written (tick s).settling _ (tick s).draws ⟨addr, hc, hsel⟩ hb
  · rw [hbase] at hsel
    rw [show State.in1 { tick s with port := s.port.tail } = s.in1 from tick_in1 s]
    exact .in1Written (tick s).settling _ (tick s).draws ⟨addr, hc, hsel⟩ hb
  · rw [hbase] at hsel
    obtain ⟨t', ht', hcase⟩ := submit_next w (answerWrite .okay { tick s with port := s.port.tail })
    obtain rfl : t = t' := Host.Outcome.next.inj (hsub.symm.trans ht')
    rcases hcase with ⟨c, rfl⟩ | ⟨i, op, n, hb, hd, rfl, hn, hf, rfl⟩
    · exact .rejected (tick s).settling _ (tick s).draws c ⟨addr, hc, hsel⟩
    · exact .accepted (tick s).settling _ (tick s).draws ⟨addr, hc, hsel⟩ hb hd hn (hf.congr rfl rfl rfl rfl)

theorem stepEffect_of_step {s t : State} (h : step s = .next t) : StepEffect s t := by
  have hcase := step_cases h
  rw [nextCycle_snd_eq, tick_with_port] at hcase
  rcases hcase with ⟨hr, rfl⟩ | ⟨-, rfl⟩ | ⟨x, hc, -, hx⟩
  · exact .reset hr
  · exact .engine false none (tick s).draws
  · exact stepEffect_of_perform hc hx

/-- A step takes one cycle off the inputs still to come. -/
theorem StepEffect.port_eq {s t : State} (h : StepEffect s t) : t.port = s.port.tail := by
  cases h <;> rfl

theorem StepEffect.params_eq {s t : State} (h : StepEffect s t) : t.params = s.params := by
  cases h with
  | reset _ => rfl
  | _ => exact tick_params s

/-- Settles O14: no effect of a step writes the parameters. -/
theorem parametersNeverChange : Obligations.ParametersNeverChange :=
  fun _ _ h => (stepEffect_of_step h).params_eq

theorem rstN_of_not_resetCycle {s : State} (h : ¬ ResetCycle s) : (nextCycle s).1.rstN = true := by
  simpa [ResetCycle] using h

theorem not_resetCycle_of_port {s : State} (h : ∀ c ∈ s.port, c.rstN = true) : ¬ ResetCycle s := by
  cases hp : s.port with
  | nil => simp [ResetCycle, nextCycle_nil hp]
  | cons c rest => simp [ResetCycle, nextCycle_cons hp, h c (by simp [hp])]

end Sys2Proof.Machine
end

section
/-! The invariant (10_state.md R32, 70_reset_and_hazards.md R180): the engine's part of a cycle keeps it, and so does
each effect of a step. -/

namespace Sys2Proof.Machine

/-- BUSY and the in-flight record as the invariant has them: an idle block, or a faithful record with time left. -/
def RecordKept (s : State) : Prop :=
  (s.busy = false ∧ s.inflight = none) ∨
    ∃ op n, s.busy = true ∧ s.inflight = some ⟨op, n⟩ ∧ 1 ≤ n ∧ op.Faithful s

theorem inv_iff {s : State} : Inv s ↔ s.triple.InFp ∧ InFp s.res ∧ RecordKept s := by
  constructor
  · intro h
    refine ⟨⟨h.s0_inFp, h.s1_inFp, h.s2_inFp⟩, h.res_inFp, ?_⟩
    have hbusy := h.busy_iff_inflight
    cases hf : s.inflight with
    | none => rw [hf] at hbusy; exact .inl ⟨by simpa using hbusy, hf⟩
    | some f =>
      rw [hf] at hbusy
      exact .inr ⟨f.op, f.remaining, by simpa using hbusy, hf, h.latency_left f hf, h.faithful f hf⟩
  · rintro ⟨⟨h0, h1, h2⟩, hres, ⟨hb, hn⟩ | ⟨op, n, hb, hf, hn, hop⟩⟩
    · exact ⟨h0, h1, h2, hres, by simp [hb, hn], by simp [hn], by simp [hn]⟩
    · exact ⟨h0, h1, h2, hres, by simp [hb, hf], by simpa [hf] using hn, by simpa [hf] using hop⟩

/-- The invariant speaks of the data registers, RCNT, BUSY and the record only. -/
theorem Inv.congr {s t : State} (h : Inv s) (h0 : t.in0 = s.in0) (h1 : t.in1 = s.in1) (hv : t.triple = s.triple)
    (hres : t.res = s.res) (hr : t.rcnt = s.rcnt) (hb : t.busy = s.busy) (hf : t.inflight = s.inflight) : Inv t := by
  rw [inv_iff] at h ⊢
  obtain ⟨hv', hres', hrec⟩ := h
  refine ⟨hv ▸ hv', hres ▸ hres', ?_⟩
  rcases hrec with ⟨hb', hf'⟩ | ⟨op, n, hb', hf', hn, hop⟩
  · exact .inl ⟨hb.trans hb', hf.trans hf'⟩
  · exact .inr ⟨op, n, hb.trans hb', hf.trans hf', hn, hop.congr h0 h1 hv hr⟩

theorem Inv.inflight_eq_none {s : State} (h : Inv s) (hb : s.busy = false) : s.inflight = none := by
  simpa [hb] using h.busy_iff_inflight

/-- A command's results are field elements (40_field_arithmetic.md R80). -/
theorem Op.Result.inFp {op : Op} {s t : State} (h : op.Result s t) (hv : s.triple.InFp) (hres : InFp s.res) :
    t.triple.InFp ∧ InFp t.res := by
  obtain ⟨-, -, -, -, h⟩ := h
  cases op with
  | nop => obtain ⟨hv', -, hres'⟩ := h; exact ⟨hv' ▸ hv, hres' ▸ hres⟩
  | init x y => obtain ⟨hv', -, hres'⟩ := h; exact ⟨hv' ▸ initTriple_inFp _ _, hres' ▸ hres⟩
  | round v k w => obtain ⟨hv', -, hres'⟩ := h; exact ⟨hv' ▸ roundFn_inFp _ _, hres' ▸ hres⟩
  | permute v k w => obtain ⟨hv', -, hres'⟩ := h; exact ⟨hv' ▸ permFrom_inFp_of_lt k.isLt v, hres' ▸ hres⟩
  | hash x y w => obtain ⟨hv', -, hres'⟩ := h; exact ⟨hv' ▸ perm_inFp (initTriple_inFp _ _), hres' ▸ hres⟩
  | modpow b e w => obtain ⟨hv', -, hres'⟩ := h; exact ⟨hv' ▸ hv, hres'.trans_lt (modpow_lt _ _)⟩

theorem tick_of_inflight_none {s : State} (h : s.inflight = none) : tick s = s := by
  simp [tick, h]

theorem tick_of_last {s : State} {f : InFlight} (hf : s.inflight = some f) (hn : f.remaining ≤ 1) :
    tick s = complete f.op s := by
  simp [tick, hf, hn]

theorem tick_of_remaining {s : State} {op : Op} {n : Nat} (hf : s.inflight = some ⟨op, n⟩) (hn : 1 < n) :
    tick s = { s with inflight := some ⟨op.advance, n - 1⟩ } := by
  simp [tick, hf, Nat.not_le.2 hn]

/-- The engine's part of a cycle keeps the invariant: a completion by its result, progress by `Op.Faithful.advance`. -/
theorem Inv.tick {s : State} (h : Inv s) : Inv (tick s) := by
  obtain ⟨hv, hres, ⟨-, hf⟩ | ⟨op, n, hb, hf, -, hop⟩⟩ := inv_iff.1 h
  · rwa [tick_of_inflight_none hf]
  by_cases hn : n ≤ 1
  · rw [tick_of_last hf hn]
    have hresult := complete_result hop
    obtain ⟨hv', hres'⟩ := hresult.inFp hv hres
    obtain ⟨-, -, hb', hf', -⟩ := hresult
    exact inv_iff.2 ⟨hv', hres', .inl ⟨hb', hf'⟩⟩
  · rw [tick_of_remaining hf (by omega)]
    exact inv_iff.2 ⟨hv, hres, .inr ⟨op.advance, n - 1, hb, rfl, by omega, hop.advance.congr rfl rfl rfl rfl⟩⟩

/-- Settles O12: every stored element is 0 and no record is in flight. -/
theorem invariantHoldsAtReset : Obligations.InvariantHoldsAtReset :=
  inv_iff.2 ⟨⟨P_pos, P_pos, P_pos⟩, P_pos, .inl ⟨rfl, rfl⟩⟩

/-- A block with no record keeps the invariant whatever is written to its inputs. -/
theorem Inv.of_idle {s t : State} (h : Inv s) (hb : s.busy = false) (hv : t.triple = s.triple) (hres : t.res = s.res)
    (hb' : t.busy = s.busy) (hf : t.inflight = s.inflight) : Inv t := by
  obtain ⟨hv', hres', -⟩ := inv_iff.1 h
  exact inv_iff.2 ⟨hv ▸ hv', hres ▸ hres', .inl ⟨hb'.trans hb, hf.trans (h.inflight_eq_none hb)⟩⟩

theorem Inv.stepEffect {s t : State} (h : Inv s) (he : StepEffect s t) : Inv t := by
  cases he with
  | reset _ => exact invariantHoldsAtReset.congr rfl rfl rfl rfl rfl rfl rfl
  | engine b a d => exact h.tick.congr rfl rfl rfl rfl rfl rfl rfl
  | inputRefused b a d _ _ _ => exact h.tick.congr rfl rfl rfl rfl rfl rfl rfl
  | in0Written b a d _ hb => exact h.tick.of_idle hb rfl rfl rfl rfl
  | in1Written b a d _ hb => exact h.tick.of_idle hb rfl rfl rfl rfl
  | rejected b a d c _ => exact h.tick.congr rfl rfl rfl rfl rfl rfl rfl
  | @accepted b a d w op n _ _ _ hn hop =>
    obtain ⟨hv, hres, -⟩ := inv_iff.1 h.tick
    exact inv_iff.2 ⟨hv, hres, .inr ⟨op, n, rfl, rfl, hn, hop.congr rfl rfl rfl rfl⟩⟩

/-- Settles O13: the engine's part keeps the invariant (`Inv.tick`), and then each effect of the step does. -/
theorem everyStepKeepsTheInvariant : Obligations.EveryStepKeepsTheInvariant :=
  fun _ _ h hstep => h.stepEffect (stepEffect_of_step hstep)

end Sys2Proof.Machine
end

section
/-! A command in flight through any host traffic short of reset, to its completion (70_reset_and_hazards.md R176, R179,
R180). -/

namespace Sys2Proof.Machine

/-- `t` has the data registers, inputs and RCNT of `s`. -/
structure SameRegs (s t : State) : Prop where
  in0 : t.in0 = s.in0
  in1 : t.in1 = s.in1
  s0 : t.s0 = s.s0
  s1 : t.s1 = s.s1
  s2 : t.s2 = s.s2
  res : t.res = s.res
  rcnt : t.rcnt = s.rcnt

theorem SameRegs.refl (s : State) : SameRegs s s := ⟨rfl, rfl, rfl, rfl, rfl, rfl, rfl⟩

theorem SameRegs.trans {s t u : State} (h : SameRegs s t) (h' : SameRegs t u) : SameRegs s u :=
  ⟨h'.in0.trans h.in0, h'.in1.trans h.in1, h'.s0.trans h.s0, h'.s1.trans h.s1, h'.s2.trans h.s2, h'.res.trans h.res,
    h'.rcnt.trans h.rcnt⟩

theorem sameRegs_with_inflight (s : State) (r : Option InFlight) : SameRegs s { s with inflight := r } :=
  ⟨rfl, rfl, rfl, rfl, rfl, rfl, rfl⟩

theorem SameRegs.triple {s t : State} (h : SameRegs s t) : t.triple = s.triple :=
  triple_eq_triple_iff.2 ⟨h.s0, h.s1, h.s2⟩

/-- A command's result is said against the registers it leaves alone. -/
theorem Op.Result.of_sameRegs {op : Op} {s s' t : State} (h : op.Result s t) (hs : SameRegs s' s) :
    op.Result s' t := by
  cases op <;> simpa only [Op.Result, hs.in0, hs.in1, hs.triple, hs.res, hs.rcnt] using h

@[simp] theorem Op.instr_advance (op : Op) : op.advance.instr = op.instr := by
  cases op <;> rfl

/-- Settles O34: the record stays faithful by `Op.Faithful.advance`. -/
theorem engineProgressKeepsTheResult : Obligations.EngineProgressKeepsTheResult :=
  fun op _ h => ⟨h.advance, op.instr_advance⟩

/-- While a command is busy, a step out of reset does no more to the record and the registers than the engine does: a
write to an input or to CMD would need BUSY = 0. -/
theorem StepEffect.of_tick_busy {s t : State} (he : StepEffect s t) (hr : ¬ ResetCycle s) (hb : (tick s).busy = true) :
    SameRegs (tick s) t ∧ t.busy = true ∧ t.inflight = (tick s).inflight := by
  cases he with
  | reset h => exact absurd h hr
  | in0Written _ _ _ _ hb' => rw [hb] at hb'; cases hb'
  | in1Written _ _ _ _ hb' => rw [hb] at hb'; cases hb'
  | accepted _ _ _ _ hb' _ _ _ => rw [hb] at hb'; cases hb'
  | _ => exact ⟨⟨rfl, rfl, rfl, rfl, rfl, rfl, rfl⟩, hb, rfl⟩

/-- A cycle out of reset that does not complete the command in flight takes one cycle off its latency, and no more. -/
theorem step_of_remaining {s t : State} {op : Op} {n : Nat} (hb : s.busy = true) (hf : s.inflight = some ⟨op, n⟩)
    (hn : 1 < n) (hr : ¬ ResetCycle s) (h : step s = .next t) :
    SameRegs s t ∧ t.busy = true ∧ t.inflight = some ⟨op.advance, n - 1⟩ := by
  have htick := tick_of_remaining hf hn
  obtain ⟨hregs, hb', hf'⟩ := (stepEffect_of_step h).of_tick_busy hr (by rw [htick]; exact hb)
  rw [htick] at hregs hf'
  exact ⟨(sameRegs_with_inflight s _).trans hregs, hb', hf'⟩

/-- `n` cycles fewer than the latency, likewise. -/
theorem runFor_of_remaining {n m : Nat} {s u : State} {op : Op} (hb : s.busy = true) (hf : s.inflight = some ⟨op, m⟩)
    (hn : n < m) (hp : ∀ c ∈ s.port, c.rstN = true) (h : runFor n s = .next u) :
    SameRegs s u ∧ u.busy = true ∧ u.inflight = some ⟨op.advanceN n, m - n⟩ := by
  induction n generalizing s op m with
  | zero =>
    obtain rfl : s = u := Host.Outcome.next.inj h
    exact ⟨SameRegs.refl s, hb, hf⟩
  | succ n ih =>
    obtain ⟨t, hstep, hrun⟩ := runFor_succ_next h
    obtain ⟨hregs, hb', hf'⟩ := step_of_remaining hb hf (by omega) (not_resetCycle_of_port hp) hstep
    have hp' : ∀ c ∈ t.port, c.rstN = true := fun c hc =>
      hp c (List.mem_of_mem_tail ((stepEffect_of_step hstep).port_eq ▸ hc))
    obtain ⟨hregs', hb'', hf''⟩ := ih hb' hf' (by omega) hp' hrun
    refine ⟨hregs.trans hregs', hb'', ?_⟩
    rw [hf'', Nat.sub_sub, Nat.add_comm 1 n]
    rfl

/-- A predicate that every step keeps holds after any number of cycles. -/
theorem runFor_keeps {p : State → Prop} (hstep : ∀ s t, p s → step s = .next t → p t) {n : Nat} {s u : State}
    (hs : p s) (h : runFor n s = .next u) : p u := by
  induction n generalizing s with
  | zero => obtain rfl : s = u := Host.Outcome.next.inj h; exact hs
  | succ n ih =>
    obtain ⟨t, ht, hrun⟩ := runFor_succ_next h
    exact ih (hstep s t hs ht) hrun

theorem Inv.busy_of_inflight {s : State} (h : Inv s) {f : InFlight} (hf : s.inflight = some f) : s.busy = true :=
  h.busy_iff_inflight.2 (by simp [hf])

/-- Settles O35: each of the `n` cycles is one of `step_of_remaining`. -/
theorem hostCannotDisturbTheCommand : Obligations.HostCannotDisturbTheCommand := by
  intro n s u f hinv hf hn hp hrun
  obtain ⟨hregs, hb, hf'⟩ := runFor_of_remaining (hinv.busy_of_inflight hf) hf hn hp hrun
  exact ⟨hf', hb, hregs.in0, hregs.in1, hregs.s0, hregs.s1, hregs.s2, hregs.res, hregs.rcnt⟩

/-- Settles O36: the record is undisturbed to its last cycle, it is faithful there by the invariant, and the completion
of a faithful record is its result. -/
theorem everyCommandCompletesWithItsResult : Obligations.EveryCommandCompletesWithItsResult := by
  intro s u f hinv hf hp hrun
  have hleft := hinv.latency_left f hf
  obtain ⟨hregs, -, hf'⟩ := runFor_of_remaining (hinv.busy_of_inflight hf) hf (by omega) hp hrun
  have hfaithful := (runFor_keeps everyStepKeepsTheInvariant hinv hrun).faithful _ hf'
  rw [tick_of_last hf' (by simp only; omega)]
  exact ((f.op.result_advanceN _ _ _).1 (complete_result hfaithful)).of_sameRegs hregs

end Sys2Proof.Machine
end

section
/-! When each register may change: the step's effects read one register at a time (10_state.md §1 to §3). -/

namespace Sys2Proof.Machine

/-- The engine's part of a cycle completes the command in flight, or leaves everything but the record. -/
theorem tick_completes_or_keeps (s : State) :
    (∃ f, s.inflight = some f ∧ f.remaining ≤ 1 ∧ tick s = complete f.op s) ∨
      (SameRegs s (tick s) ∧ (tick s).busy = s.busy) := by
  rcases tick_cases s with ⟨-, h⟩ | h | ⟨f, -, -, h⟩
  · rw [h]; exact .inr ⟨SameRegs.refl s, rfl⟩
  · exact .inl h
  · rw [h]; exact .inr ⟨sameRegs_with_inflight s _, rfl⟩

/-- What no transaction writes is, out of reset, as the engine leaves it. -/
theorem StepEffect.results_eq {s t : State} (he : StepEffect s t) (hr : ¬ ResetCycle s) :
    t.triple = (tick s).triple ∧ t.rcnt = (tick s).rcnt ∧ t.res = (tick s).res := by
  cases he with
  | reset h => exact absurd h hr
  | _ => exact ⟨rfl, rfl, rfl⟩

/-- The results change in a reset cycle and in the cycle of a completion only. -/
theorem step_results {s t : State} (h : step s = .next t) :
    ResetCycle s ∨ (t.triple = s.triple ∧ t.rcnt = s.rcnt ∧ t.res = s.res) ∨
      ∃ f, CompletionCycle s f ∧ t.triple = (complete f.op s).triple ∧ t.rcnt = (complete f.op s).rcnt ∧
        t.res = (complete f.op s).res := by
  by_cases hr : ResetCycle s
  · exact .inl hr
  obtain ⟨hv, hrcnt, hres⟩ := (stepEffect_of_step h).results_eq hr
  rcases tick_completes_or_keeps s with ⟨f, hf, hn, htick⟩ | ⟨hregs, -⟩
  · rw [htick] at hv hrcnt hres
    exact .inr (.inr ⟨f, ⟨hf, hn, rstN_of_not_resetCycle hr⟩, hv, hrcnt, hres⟩)
  · exact .inr (.inl ⟨hv.trans hregs.triple, hrcnt.trans hregs.rcnt, hres.trans hregs.res⟩)

/-- A completed command that changes the triple or RCNT is a permutation command, and RCNT tells how far it went. -/
theorem Op.Result.rcnt_of_changed {op : Op} {s t : State} (h : op.Result s t) (hf : op.Faithful s)
    (hne : ¬ (t.triple = s.triple ∧ t.rcnt = s.rcnt)) :
    op.writesState = true ∧
      ((op.instr = .init ∧ t.rcnt = 0) ∨ (op.instr = .round ∧ t.rcnt.val = s.rcnt.val + 1) ∨
        ((op.instr = .permute ∨ op.instr = .hash) ∧ t.rcnt = 8)) := by
  obtain ⟨-, -, -, -, h⟩ := h
  cases op with
  | nop => exact absurd ⟨h.1, h.2.1⟩ hne
  | modpow b e w => exact absurd ⟨h.1, h.2.1⟩ hne
  | init x y => exact ⟨rfl, .inl ⟨rfl, h.2.1⟩⟩
  | round v k w =>
    obtain ⟨-, hk, -⟩ := hf
    exact ⟨rfl, .inr (.inl ⟨rfl, by rw [h.2.1, ← hk]; rfl⟩)⟩
  | permute v k w => exact ⟨rfl, .inr (.inr ⟨.inl rfl, h.2.1⟩)⟩
  | hash x y w => exact ⟨rfl, .inr (.inr ⟨.inr rfl, h.2.1⟩)⟩

/-- Settles O37: out of reset the triple and RCNT change by a completion, whose result names the command. -/
theorem stateChangesOnlyAtCompletion : Obligations.StateChangesOnlyAtCompletion := by
  intro s t hinv hstep hchange
  have hne : ¬ (t.triple = s.triple ∧ t.rcnt = s.rcnt) := by
    rw [triple_eq_triple_iff]; tauto
  rcases step_results hstep with hr | ⟨hv, hrcnt, -⟩ | ⟨f, hc, hv, hrcnt, -⟩
  · exact .inl hr
  · exact absurd ⟨hv, hrcnt⟩ hne
  · have hfaithful := hinv.faithful f hc.1
    rw [hv, hrcnt] at hne
    rw [hrcnt]
    exact .inr ⟨f, hc, (complete_result hfaithful).rcnt_of_changed hfaithful hne⟩

theorem complete_res_of_ne_modpow {op : Op} (s : State) (h : op.instr ≠ .modpow) : (complete op s).res = s.res := by
  cases op with
  | modpow b e w => exact absurd rfl h
  | _ => rfl

/-- Settles O38: out of reset RES changes by a completion, and only MODPOW's writes it. -/
theorem onlyModpowAndResetWriteRes : Obligations.OnlyModpowAndResetWriteRes := by
  intro s t hstep hne
  rcases step_results hstep with hr | ⟨-, -, hres⟩ | ⟨f, hc, -, -, hres⟩
  · exact .inl hr
  · exact absurd hres hne
  · refine .inr ⟨f, hc, ?_⟩
    by_contra hop
    exact hne (hres.trans (complete_res_of_ne_modpow s hop))

/-- Settles O39: of a step's effects only a reset and the write of an IN word touch that register. -/
theorem onlyTheHostWritesInputs : Obligations.OnlyTheHostWritesInputs := by
  intro s t hstep
  have he := stepEffect_of_step hstep
  constructor
  · intro hne
    cases he with
    | reset h => exact .inl h
    | in0Written _ _ _ hw hb => exact .inr ⟨_, _, hw, hb, rfl⟩
    | _ => exact absurd (tick_in0 s) hne
  · intro hne
    cases he with
    | reset h => exact .inl h
    | in1Written _ _ _ hw hb => exact .inr ⟨_, _, hw, hb, rfl⟩
    | _ => exact absurd (tick_in1 s) hne

/-- Settles O40: of a step's effects only a reset, a refused IN write and a command word touch ERR. -/
theorem errChangesOnlyAtItsEvents : Obligations.ErrChangesOnlyAtItsEvents := by
  intro s t hstep hne
  cases stepEffect_of_step hstep with
  | reset h => exact .inl h
  | @inputRefused _ _ _ x k w hx hw hb =>
    rcases hx with rfl | rfl
    · exact .inr (.inr ⟨hb, rfl, k, w, .inl hw⟩)
    · exact .inr (.inr ⟨hb, rfl, k, w, .inr hw⟩)
  | rejected _ _ _ _ hw => exact .inr (.inl ⟨_, hw⟩)
  | accepted _ _ _ hw _ _ _ _ => exact .inr (.inl ⟨_, hw⟩)
  | _ => exact absurd (tick_err s) hne

/-- The engine's part of a cycle never sets BUSY. -/
theorem busy_of_tick_busy {s : State} (h : (tick s).busy = true) : s.busy = true := by
  rcases tick_completes_or_keeps s with ⟨f, -, -, htick⟩ | ⟨-, hb⟩
  · rw [htick, complete_frame] at h; cases h
  · rwa [hb] at h

/-- Settles O41: BUSY is set by an acceptance only, and cleared by a reset or by the engine, at a completion. -/
theorem busyRisesAndFallsAsTheRulesSay : Obligations.BusyRisesAndFallsAsTheRulesSay := by
  intro s t hstep
  have he := stepEffect_of_step hstep
  constructor
  · intro hidle hbusy
    cases he with
    | reset _ => cases hbusy
    | accepted _ _ _ hw _ hd _ _ => exact ⟨_, _, _, hw, hd, rfl, rfl, rfl⟩
    | _ => rw [busy_of_tick_busy hbusy] at hidle; cases hidle
  · intro hbusy hidle
    by_cases hr : ResetCycle s
    · exact .inl hr
    rcases tick_completes_or_keeps s with ⟨f, hf, hn, -⟩ | ⟨-, hb⟩
    · exact .inr ⟨f, hf, hn, rstN_of_not_resetCycle hr⟩
    · obtain ⟨-, hb', -⟩ := he.of_tick_busy hr (hb.trans hbusy)
      rw [hb'] at hidle; cases hidle

end Sys2Proof.Machine
end

section
/-! Reduction, the power that square-and-multiply computes, and the S-box as a bijection (40_field_arithmetic.md R81,
R85, R87, R90, 00_scope.md R7). -/

namespace Sys2Proof.Machine

/-- Settles O15: the quotient is `x / P`, and six times P is above 2^256. -/
theorem reductionIsExact : Obligations.ReductionIsExact := by
  intro x
  have hx : fred x + x / P * P = x := Nat.mod_add_div' x P
  refine ⟨fred_lt x, ⟨x / P, hx.symm⟩, fun hlt => ⟨x / P, ?_, by omega, by omega⟩⟩
  exact Nat.le_of_lt_succ (Nat.div_lt_of_lt_mul (hlt.trans (by decide : 2 ^ 256 < P * 6)))

/-- The closed form of the loop (R85). -/
theorem modpow_eq (b e : Nat) : modpow b e = (b % P) ^ e % P := by
  unfold modpow PowWork.finish
  rw [loop_eq _ _ Nat.lt_log2_self one_lt_P]
  simp only [PowWork.start, fred, one_mul]

/-- The power of a value is the power of its residue. -/
theorem modpow_eq_pow_mod (b e : Nat) : modpow b e = b ^ e % P := by
  rw [modpow_eq, ← Nat.pow_mod]

/-- Settles O16: the closed form, below P by `modpow_lt`. -/
theorem modpowIsThePower : Obligations.ModpowIsThePower := fun b e => ⟨modpow_eq b e, modpow_lt b e⟩

theorem modpow_of_mod_eq_zero {b e : Nat} (hb : b % P = 0) (he : 1 ≤ e) : modpow b e = 0 := by
  rw [modpow_eq, hb, Nat.zero_pow he, Nat.zero_mod]

theorem modpow_congr {b c : Nat} (h : b % P = c % P) (e : Nat) : modpow b e = modpow c e := by
  rw [modpow_eq, modpow_eq, h]

/-- P - 1 is a square root of 1. -/
theorem pred_P_sq_mod : (P - 1) ^ 2 % P = 1 := by decide

theorem modpow_pred_P_even (e : Nat) : modpow (P - 1) (2 * e) = 1 := by
  rw [modpow_eq_pow_mod, pow_mul, Nat.pow_mod, pred_P_sq_mod, one_pow]; rfl

theorem modpow_pred_P_odd (e : Nat) : modpow (P - 1) (2 * e + 1) = P - 1 := by
  rw [modpow_eq_pow_mod, pow_succ, Nat.mul_mod, ← modpow_eq_pow_mod, modpow_pred_P_even]; rfl

/-- Fermat's little theorem: P is prime. -/
theorem modpow_pred_P_exponent {b : Nat} (h : fred b ≠ 0) : modpow b (P - 1) = 1 := by
  have hcop : Nat.Coprime b P :=
    ((Nat.Prime.coprime_iff_not_dvd prime_P).2 fun hdvd => h (Nat.mod_eq_zero_of_dvd hdvd)).symm
  have hfermat : b ^ (P - 1) % P = 1 % P := by
    rw [← Nat.totient_prime prime_P]; exact Nat.ModEq.pow_totient hcop
  rw [modpow_eq_pow_mod, hfermat]; rfl

/-- Settles O17: each corner is a power modulo P, the last one Fermat's. -/
theorem modpowCornerCases : Obligations.ModpowCornerCases := by
  refine ⟨fun b => ?_, fun _ _ => modpow_of_mod_eq_zero, ?_, fun e => ?_,
    fun e => ⟨modpow_pred_P_even e, modpow_pred_P_odd e⟩, fun _ => modpow_pred_P_exponent⟩
  · rw [modpow_eq, pow_zero]; rfl
  · rw [modpow_congr (Nat.add_mod_left P 3), modpow_eq_pow_mod]; rfl
  · rw [modpow_eq_pow_mod, one_pow]; rfl

theorem sbox_eq (x : Nat) : sbox x = x ^ 5 % P := modpow_eq_pow_mod x 5

/-- The exponent that undoes the fifth power (00_scope.md R7). -/
def INV_ALPHA : Nat := 17510594297471420177797124596205820070838691520332827474958563349260646796493

/-- It is the inverse of 5 modulo P - 1. -/
theorem five_mul_inv_alpha : 5 * INV_ALPHA = (P - 1) * 4 + 1 := by decide

/-- An exponent that is 1 modulo P - 1 leaves every field element. -/
theorem pow_mod_of_exponent {x : Nat} (hx : x < P) (m : Nat) : x ^ ((P - 1) * m + 1) % P = x := by
  by_cases h0 : x = 0
  · rw [h0, zero_pow (Nat.succ_ne_zero _), Nat.zero_mod]
  have hfermat : x ^ (P - 1) % P = 1 := by
    rw [← modpow_eq_pow_mod]
    exact modpow_pred_P_exponent (by rwa [fred_eq_self hx])
  rw [pow_succ, pow_mul, Nat.mul_mod, Nat.pow_mod, hfermat, one_pow, ← Nat.mul_mod, one_mul, Nat.mod_eq_of_lt hx]

theorem modpow_sbox {x : Nat} (hx : x < P) : modpow (sbox x) INV_ALPHA = x := by
  rw [sbox_eq, modpow_eq, Nat.mod_mod, ← Nat.pow_mod, ← pow_mul, five_mul_inv_alpha, pow_mod_of_exponent hx]

theorem sbox_modpow {x : Nat} (hx : x < P) : sbox (modpow x INV_ALPHA) = x := by
  rw [sbox_eq, modpow_eq_pow_mod, ← Nat.pow_mod, ← pow_mul, Nat.mul_comm, five_mul_inv_alpha, pow_mod_of_exponent hx]

/-- Settles O18: the two powers undo each other since their exponents multiply to 1 modulo P - 1. -/
theorem sboxIsTheFifthPowerBijection : Obligations.SboxIsTheFifthPowerBijection :=
  ⟨sbox_eq, fun _ hx => ⟨modpow_sbox hx, sbox_modpow hx⟩, by decide, by decide, by decide⟩

theorem P_lt_two_pow_256 : P < 2 ^ 256 := P_lt_two_pow.trans (by decide)

theorem narrow_toNat_of_lt {v : Nat} (h : v < 2 ^ 256) : (narrow v).toNat = v := by
  rw [narrow, if_pos h, BitVec.toNat_ofNat, Nat.mod_eq_of_lt h]

theorem narrow_toNat_of_le {v : Nat} (h : 2 ^ 256 ≤ v) : (narrow v).toNat = v % P := by
  rw [narrow, if_neg (Nat.not_lt.2 h), BitVec.toNat_ofNat, Nat.mod_eq_of_lt ((fred_lt v).trans P_lt_two_pow_256)]
  rfl

/-- Narrowed or not, a value has the same residue. -/
theorem narrow_toNat_mod (v : Nat) : (narrow v).toNat % P = v % P := by
  rcases Nat.lt_or_ge v (2 ^ 256) with h | h
  · rw [narrow_toNat_of_lt h]
  · rw [narrow_toNat_of_le h, Nat.mod_mod]

theorem H_narrow (v w : Nat) : H (narrow v).toNat (narrow w).toNat = H v w :=
  H_congr (narrow_toNat_mod v) (narrow_toNat_mod w)

/-- Settles O54: the digest is a function of the residues, which narrowing keeps. -/
theorem narrowingKeepsTheDigest : Obligations.NarrowingKeepsTheDigest := fun v w =>
  ⟨narrow_toNat_of_lt, narrow_toNat_of_le, H_narrow v w⟩

end Sys2Proof.Machine
end

section
/-! The layers of a round, and that each is a bijection of the field triples (41_permutation.md R103 to R109). -/

namespace Sys2Proof.Machine

/-- In a partial round only the first element is substituted (R101, R105). -/
theorem roundFn_of_partial {r : Nat} (h : 2 ≤ r ∧ r < 6) (v : Triple) :
    rc r = ⟨r + 10, r + 20, r + 30⟩ ∧
      roundFn v r = mix ⟨sbox (fadd v.s0 (rc r).s0), fadd v.s1 (rc r).s1, fadd v.s2 (rc r).s2⟩ := by
  have htype : rtype r = .part := by rw [rtype_eq, if_neg (by omega)]
  simp [rc, roundFn, sboxLayer, arc, htype]

/-- In a full round all three elements are substituted (R101, R104). -/
theorem roundFn_of_full {r : Nat} (h : ¬ (2 ≤ r ∧ r < 6)) (v : Triple) :
    rc r = ⟨r + 1, r + 2, r + 3⟩ ∧
      roundFn v r = mix ⟨sbox (fadd v.s0 (rc r).s0), sbox (fadd v.s1 (rc r).s1), sbox (fadd v.s2 (rc r).s2)⟩ := by
  have htype : rtype r = .full := by rw [rtype_eq, if_pos (by omega)]
  simp [rc, roundFn, sboxLayer, arc, htype]

/-- Settles O20: the two kinds of round, with the S-box as the fifth power. -/
theorem roundsFollowTheirType : Obligations.RoundsFollowTheirType := by
  intro v r _
  refine ⟨fun h => ?_, fun h => ?_⟩
  · obtain ⟨hrc, hround⟩ := roundFn_of_partial h v
    exact ⟨hrc, by rw [hround, sbox_eq]; rfl⟩
  · obtain ⟨hrc, hround⟩ := roundFn_of_full h v
    exact ⟨hrc, by rw [hround, sbox_eq, sbox_eq, sbox_eq]; rfl⟩

/-- The field triples. -/
def fieldTriples : Set Triple := { v | v.InFp }

theorem fieldTriples_finite : fieldTriples.Finite := by
  refine Set.Finite.subset (((Set.finite_Iio P).prod ((Set.finite_Iio P).prod (Set.finite_Iio P))).image
    fun x => Triple.mk x.1 x.2.1 x.2.2) ?_
  rintro ⟨a, b, c⟩ ⟨ha, hb, hc⟩
  exact ⟨(a, b, c), ⟨ha, hb, hc⟩, rfl⟩

/-- On a finite set a one-to-one map into it is onto. -/
theorem bijOn_of_injOn {f : Triple → Triple} (hm : ∀ v, v.InFp → (f v).InFp)
    (hi : ∀ v w : Triple, v.InFp → w.InFp → f v = f w → v = w) : Set.BijOn f fieldTriples fieldTriples :=
  (fieldTriples_finite.injOn_iff_bijOn_of_mapsTo hm).1 fun _ hv _ hw h => hi _ _ hv hw h

theorem fadd_right_inj {a b : Nat} (ha : a < P) (hb : b < P) (c : Nat) (h : fadd a c = fadd b c) : a = b :=
  (Nat.ModEq.add_right_cancel' c h).eq_of_lt_of_lt ha hb

theorem sbox_inj {a b : Nat} (ha : a < P) (hb : b < P) (h : sbox a = sbox b) : a = b := by
  rw [← modpow_sbox ha, h, modpow_sbox hb]

theorem Triple.eq_of_elements {v w : Triple} (h0 : v.s0 = w.s0) (h1 : v.s1 = w.s1) (h2 : v.s2 = w.s2) : v = w := by
  cases v; cases w; congr

theorem arc_bijOn (r : Nat) : Set.BijOn (fun v => arc v r) fieldTriples fieldTriples := by
  refine bijOn_of_injOn (fun v _ => ⟨fadd_lt _ _, fadd_lt _ _, fadd_lt _ _⟩) fun v w hv hw h => ?_
  obtain ⟨hv0, hv1, hv2⟩ := hv
  obtain ⟨hw0, hw1, hw2⟩ := hw
  obtain ⟨h0, h1, h2⟩ := Triple.mk.inj h
  exact Triple.eq_of_elements (fadd_right_inj hv0 hw0 _ h0) (fadd_right_inj hv1 hw1 _ h1) (fadd_right_inj hv2 hw2 _ h2)

theorem sboxLayer_bijOn (r : Nat) : Set.BijOn (fun v => sboxLayer v r) fieldTriples fieldTriples := by
  cases htype : rtype r with
  | full =>
    simp only [sboxLayer, htype]
    refine bijOn_of_injOn (fun v _ => ⟨sbox_lt _, sbox_lt _, sbox_lt _⟩) fun v w hv hw h => ?_
    obtain ⟨hv0, hv1, hv2⟩ := hv
    obtain ⟨hw0, hw1, hw2⟩ := hw
    obtain ⟨h0, h1, h2⟩ := Triple.mk.inj h
    exact Triple.eq_of_elements (sbox_inj hv0 hw0 h0) (sbox_inj hv1 hw1 h1) (sbox_inj hv2 hw2 h2)
  | part =>
    simp only [sboxLayer, htype]
    refine bijOn_of_injOn (fun v hv => ⟨sbox_lt _, hv.2⟩) fun v w hv hw h => ?_
    obtain ⟨h0, h1, h2⟩ := Triple.mk.inj h
    exact Triple.eq_of_elements (sbox_inj hv.1 hw.1 h0) h1 h2

/-- The mixer's outputs sum to four times the inputs' sum. -/
theorem mix_sum_modEq (v : Triple) :
    (mix v).s0 + (mix v).s1 + (mix v).s2 ≡ 4 * (v.s0 + v.s1 + v.s2) [MOD P] := by
  rw [mix_eq]
  calc _ ≡ (2 * v.s0 + v.s1 + v.s2) + (v.s0 + 2 * v.s1 + v.s2) + (v.s0 + v.s1 + 2 * v.s2) [MOD P] :=
        ((Nat.mod_modEq _ _).add (Nat.mod_modEq _ _)).add (Nat.mod_modEq _ _)
    _ = 4 * (v.s0 + v.s1 + v.s2) := by ring

/-- Each output is the inputs' sum and one input more. -/
theorem mix_modEq (v : Triple) :
    (mix v).s0 ≡ v.s0 + (v.s0 + v.s1 + v.s2) [MOD P] ∧ (mix v).s1 ≡ v.s1 + (v.s0 + v.s1 + v.s2) [MOD P] ∧
      (mix v).s2 ≡ v.s2 + (v.s0 + v.s1 + v.s2) [MOD P] := by
  have key : ∀ a b c x S : Nat, a + b + c = x + S → fsum a b c ≡ x + S [MOD P] := fun a b c x S h =>
    h ▸ Nat.mod_modEq _ _
  rw [mix_eq]
  exact ⟨key _ _ _ _ _ (by ring), key _ _ _ _ _ (by ring), key _ _ _ _ _ (by ring)⟩

/-- The sum is found from the outputs, since 4 is a unit, and each input from its output and the sum. -/
theorem mix_inj {v w : Triple} (hv : v.InFp) (hw : w.InFp) (h : mix v = mix w) : v = w := by
  have hcop : Nat.gcd P 4 = 1 := by decide
  have hsum : v.s0 + v.s1 + v.s2 ≡ w.s0 + w.s1 + w.s2 [MOD P] :=
    Nat.ModEq.cancel_left_of_coprime hcop ((mix_sum_modEq v).symm.trans (h ▸ mix_sum_modEq w))
  obtain ⟨hv0, hv1, hv2⟩ := mix_modEq v
  obtain ⟨hw0, hw1, hw2⟩ := mix_modEq w
  rw [h] at hv0 hv1 hv2
  obtain ⟨hv0', hv1', hv2'⟩ := hv
  obtain ⟨hw0', hw1', hw2'⟩ := hw
  exact Triple.eq_of_elements ((hsum.add_right_cancel (hv0.symm.trans hw0)).eq_of_lt_of_lt hv0' hw0')
    ((hsum.add_right_cancel (hv1.symm.trans hw1)).eq_of_lt_of_lt hv1' hw1')
    ((hsum.add_right_cancel (hv2.symm.trans hw2)).eq_of_lt_of_lt hv2' hw2')

theorem mix_bijOn : Set.BijOn mix fieldTriples fieldTriples :=
  bijOn_of_injOn (fun v _ => mix_inFp v) fun _ _ => mix_inj

/-- Settles O21: each output is the sum and one input more, which gives the sum and the differences; one-to-one is
`mix_inj`, and onto follows in a finite set. -/
theorem mixerProperties : Obligations.MixerProperties := by
  refine ⟨fun v _ => ⟨mix_eq v, mix_sum_modEq v, ?_, ?_, mix_inFp v⟩, mix_bijOn.surjOn, fun _ _ => mix_inj⟩
  · obtain ⟨h0, h1, -⟩ := mix_modEq v
    calc (mix v).s0 + v.s1 ≡ v.s0 + (v.s0 + v.s1 + v.s2) + v.s1 [MOD P] := h0.add_right _
      _ = v.s1 + (v.s0 + v.s1 + v.s2) + v.s0 := by ring
      _ ≡ (mix v).s1 + v.s0 [MOD P] := h1.symm.add_right _
  · obtain ⟨-, h1, h2⟩ := mix_modEq v
    calc (mix v).s1 + v.s2 ≡ v.s1 + (v.s0 + v.s1 + v.s2) + v.s2 [MOD P] := h1.add_right _
      _ = v.s2 + (v.s0 + v.s1 + v.s2) + v.s1 := by ring
      _ ≡ (mix v).s2 + v.s1 [MOD P] := h2.symm.add_right _

theorem roundFn_bijOn (r : Nat) : Set.BijOn (fun v => roundFn v r) fieldTriples fieldTriples :=
  mix_bijOn.comp ((sboxLayer_bijOn r).comp (arc_bijOn r))

theorem rounds_bijOn (n r : Nat) : Set.BijOn (rounds n r) fieldTriples fieldTriples := by
  induction n generalizing r with
  | zero => exact Set.bijOn_id fieldTriples
  | succ n ih => exact (ih (r + 1)).comp (roundFn_bijOn r)

/-- Settles O22: a composition of bijective rounds. -/
theorem permutationIsABijection : Obligations.PermutationIsABijection := by
  intro k _
  have hbij : Set.BijOn (fun v => permFrom v k) fieldTriples fieldTriples := rounds_bijOn (NR - k) k
  exact ⟨hbij.mapsTo, hbij.surjOn, fun _ _ hv hw h => hbij.injOn hv hw h⟩

end Sys2Proof.Machine
end

section
/-! The layout of STATUS, the byte lanes and the zero-extended reads (10_state.md R23, R24, R26, 20_memory.md R43). -/

namespace Sys2Proof.Machine

/-- Bit vectors side by side, as a sum at their weights. -/
theorem toNat_append_eq_add {m n : Nat} (x : BitVec m) (y : BitVec n) :
    (x ++ y).toNat = x.toNat * 2 ^ n + y.toNat := by
  rw [BitVec.toNat_append, ← Nat.shiftLeft_add_eq_or_of_lt y.isLt, Nat.shiftLeft_eq]

/-- The fields of STATUS at their weights, whichever round count is shown (R26). -/
theorem statusWordWith_toNat (r : Fin (NR + 1)) (s : State) :
    (statusWordWith r s).toNat = r.val * 0x100 + s.err.code.toNat * 0x10 + s.busy.toNat := by
  have hr : (BitVec.ofNat 4 r.val).toNat = r.val := by
    rw [BitVec.toNat_ofNat, Nat.mod_eq_of_lt (r.isLt.trans (by decide))]
  have hb : (BitVec.ofBool s.busy).toNat = s.busy.toNat := BitVec.toNat_ofBool s.busy
  have h0 : ∀ n, (0 : BitVec n).toNat = 0 := fun _ => rfl
  simp only [statusWordWith, toNat_append_eq_add, hr, hb, h0]
  omega

theorem errCode_toNat_le (e : ErrCode) : e.code.toNat ≤ 3 := by
  cases e <;> decide

theorem errCode_eq_zero_iff (e : ErrCode) : e.code = 0 ↔ e = .ok := by
  cases e <;> decide

/-- Bit 0 of STATUS is BUSY, in every state (R27). -/
theorem statusWordWith_busy (r : Fin (NR + 1)) (s : State) : (statusWordWith r s).getLsbD 0 = s.busy := by
  have hb := Bool.toNat_lt s.busy
  have hlow : (statusWordWith r s).toNat % 2 = s.busy.toNat := by
    rw [statusWordWith_toNat]
    omega
  rw [BitVec.getLsbD, Nat.testBit_zero, hlow]
  cases s.busy <;> rfl

/-- Bits 7 to 4 of STATUS are ERR, in every state (R28). -/
theorem statusWordWith_err (r : Fin (NR + 1)) (s : State) : (statusWordWith r s).extractLsb' 4 4 = s.err.code := by
  apply BitVec.eq_of_toNat_eq
  have he := s.err.code.isLt
  have hb := Bool.toNat_lt s.busy
  rw [BitVec.extractLsb'_toNat, statusWordWith_toNat, Nat.shiftRight_eq_div_pow]
  omega

/-- Settles O49: the layout holds for any round count shown, here RCNT itself. -/
theorem statusWordLayout : Obligations.StatusWordLayout := fun s =>
  ⟨statusWordWith_toNat s.rcnt s, errCode_toNat_le s.err, rcnt_le_eight s⟩

theorem lane_toNat (w : Word) (j : Fin 4) : (lane w j).toNat = w.toNat / 2 ^ (8 * j.val) % 2 ^ 8 := by
  rw [lane, BitVec.extractLsb'_toNat, Nat.shiftRight_eq_div_pow]

theorem wordOfLanes_lane (w : Word) : wordOfLanes (lane w 0) (lane w 1) (lane w 2) (lane w 3) = w := by
  apply BitVec.eq_of_toNat_eq
  have hw := w.isLt
  simp only [wordOfLanes, toNat_append_eq_add, lane_toNat]
  norm_num
  omega

/-- A lane of a register's word is a byte of the register: the two places add up. -/
theorem lane_regWord (v : Reg256) (k : Fin 8) (j : Fin 4) (i : Fin 32) (h : i.val = 4 * k.val + j.val) :
    lane (regWord v k) j = regByte v i := by
  apply BitVec.eq_of_getLsbD_eq
  intro n hn
  have hword : 8 * j.val + n < 32 := by omega
  have hplace : 32 * k.val + (8 * j.val + n) = 8 * i.val + n := by omega
  simp [lane, regWord, regByte, hword, hplace]

/-- Settles O43: a lane is a slice of its word, and a word a slice of its register. -/
theorem byteLanesAreLittleEndian : Obligations.ByteLanesAreLittleEndian :=
  ⟨fun w => ⟨wordOfLanes_lane w, lane_toNat w⟩, lane_regWord⟩

theorem toNat_zeroExtend (x : FieldReg) : (x.setWidth 256).toNat = x.toNat :=
  BitVec.toNat_setWidth_of_le (by decide)

/-- The last word of a zero-extended element holds its bits from 224 on, 30 of them. -/
theorem regWord_seven_lt (x : FieldReg) : (regWord (x.setWidth 256) 7).toNat < 2 ^ 30 := by
  have hx := x.isLt
  rw [regWord_toNat, toNat_zeroExtend]
  refine (Nat.mod_le _ _).trans_lt (Nat.div_lt_of_lt_mul ?_)
  rw [← pow_add]
  exact hx

/-- Settles O51: the four views are zero extensions of 254 bits. -/
theorem elementRegistersReadZeroExtended : Obligations.ElementRegistersReadZeroExtended := by
  refine fun s => ⟨toNat_zeroExtend _, toNat_zeroExtend _, toNat_zeroExtend _, toNat_zeroExtend _, fun b h0 h1 => ?_⟩
  cases b with
  | in0 => exact absurd rfl h0
  | in1 => exact absurd rfl h1
  | s0 => exact regWord_seven_lt s.s0
  | s1 => exact regWord_seven_lt s.s1
  | s2 => exact regWord_seven_lt s.s2
  | res => exact regWord_seven_lt s.res

end Sys2Proof.Machine
end

section
/-! Reads and writes of the registers on the port (20_memory.md R44, R45, R48, R49, 70_reset_and_hazards.md R180,
R181). -/

namespace Sys2Proof.Machine

theorem perform_read_of_target {s : State} {addr size : Nat} {x : Target}
    (h : busSelect s.base addr size = .target x) : perform (.read addr size) s = .next (readTarget x s) := by
  simp only [perform, h]

theorem step_read {s : State} {rest : List Cycle} {addr : Nat} {x : Target}
    (hn : NextTransaction s (.read addr 4) rest) (hsel : busSelect s.base addr 4 = .target x) :
    step s = .next (readTarget x (ready s rest)) :=
  (step_of_transaction hn).trans (perform_read_of_target (by rwa [ready_base]))

theorem step_write {s : State} {rest : List Cycle} {addr : Nat} {x : Target} {w : Word}
    (hn : NextTransaction s (.write addr 4 w) rest) (hsel : busSelect s.base addr 4 = .target x) :
    step s = writeTarget x w (ready s rest) :=
  (step_of_transaction hn).trans (perform_write_of_target w (by rwa [ready_base]))

/-! Reads -/

theorem readTarget_of_settled {s : State} {b : Bank} (k : Fin 8) (h : s.bankUnsettled b = false) :
    readTarget (.word b k) s = answerRead (regWord (s.bank b) k) .okay s := by
  simp [readTarget, h]

theorem readTarget_of_unsettled {s : State} {b : Bank} (k : Fin 8) (h : s.bankUnsettled b = true) :
    readTarget (.word b k) s = answerFreeWord s := by
  simp [readTarget, h]

/-- Settles O47: a settled register is read as it is, and CMD as 0. -/
theorem stableReadsReturnTheWord : Obligations.StableReadsReturnTheWord := by
  refine fun s rest => ⟨fun b k hn h => ?_, fun hn => step_read hn (busSelect_cmd s.base)⟩
  rw [step_read hn (busSelect_word s.base b k), readTarget_of_settled k h]
  rfl

/-- The commands that write the state, by name (30_encoding.md R61). -/
theorem Op.writesState_iff (op : Op) : op.writesState = true ↔
    op.instr = .init ∨ op.instr = .round ∨ op.instr = .permute ∨ op.instr = .hash := by
  cases op <;> simp [Op.writesState, Op.instr]

theorem Op.writesRes_iff (op : Op) : op.writesRes = true ↔ op.instr = .modpow := by
  cases op <;> simp [Op.writesRes, Op.instr]

theorem Inv.stateUnsettled_iff {s : State} (h : Inv s) :
    s.stateUnsettled = true ↔ ∃ f, s.inflight = some f ∧ f.op.writesState = true := by
  rw [State.stateUnsettled, Bool.and_eq_true, Option.any_eq_true]
  exact ⟨And.right, fun ⟨f, hf, hw⟩ => ⟨h.busy_of_inflight hf, f, hf, hw⟩⟩

theorem Inv.resUnsettled_iff {s : State} (h : Inv s) :
    s.resUnsettled = true ↔ ∃ f, s.inflight = some f ∧ f.op.writesRes = true := by
  rw [State.resUnsettled, Bool.and_eq_true, Option.any_eq_true]
  exact ⟨And.right, fun ⟨f, hf, hw⟩ => ⟨h.busy_of_inflight hf, f, hf, hw⟩⟩

/-- Settles O48: with the invariant a record in flight is what makes a register unsettled, and its command says which
registers. -/
theorem unspecifiedReadsAreFreeDraws : Obligations.UnspecifiedReadsAreFreeDraws := by
  refine ⟨fun s b hinv => ?_, fun s rest b k hn h => ?_⟩
  · cases b <;> simp [State.bankUnsettled, hinv.stateUnsettled_iff, hinv.resUnsettled_iff, Op.writesState_iff,
      Op.writesRes_iff]
  · rw [step_read hn (busSelect_word s.base b k), readTarget_of_unsettled k h]
    rfl

/-- A STATUS read shows ERR and BUSY as they are, and RCNT too unless it is being written (R181). -/
theorem readTarget_status (s : State) :
    ∃ (r : Fin (NR + 1)) (d : Nat),
      readTarget .status s = { s with answer := some (.read (statusWordWith r s) .okay), draws := d } ∧
      (s.stateUnsettled = false → r = s.rcnt ∧ d = s.draws) ∧
      (s.stateUnsettled = true → r = Config.freeRcnt s.draws ∧ d = s.draws + 1) := by
  cases h : s.stateUnsettled with
  | false => exact ⟨s.rcnt, s.draws, by simp only [readTarget, h]; rfl, fun _ => ⟨rfl, rfl⟩, nofun⟩
  | true => exact ⟨Config.freeRcnt s.draws, s.draws + 1, by simp only [readTarget, h]; rfl, nofun, fun _ => ⟨rfl, rfl⟩⟩

/-- Settles O50: the read is `readTarget_status`, and the word's fields are `statusWordWith_toNat`. -/
theorem statusReadsSeeBusyAndErr : Obligations.StatusReadsSeeBusyAndErr := by
  intro s rest hn
  obtain ⟨r, d, hread, hsettled, hunsettled⟩ := readTarget_status (ready s rest)
  rw [ready_draws] at hsettled hunsettled
  exact ⟨_, statusWordWith r (ready s rest), r, (step_read hn (busSelect_status s.base)).trans (congrArg _ hread), rfl,
    rfl, statusWordWith_toNat r _, hsettled, hunsettled⟩

/-! Writes -/

/-- The registers with this value in an input register; the host cannot write the others (20_memory.md R46). -/
def State.setInput (s : State) (b : Bank) (v : Reg256) : State :=
  match b with
  | .in0 => { s with in0 := v }
  | .in1 => { s with in1 := v }
  | _ => s

theorem bank_setInput {b : Bank} (hb : b = .in0 ∨ b = .in1) (s : State) (v : Reg256) :
    (s.setInput b v).bank b = v := by
  rcases hb with rfl | rfl <;> rfl

@[simp] theorem setInput_base (s : State) (b : Bank) (v : Reg256) : (s.setInput b v).base = s.base := by
  cases b <;> rfl

@[simp] theorem setInput_port (s : State) (b : Bank) (v : Reg256) : (s.setInput b v).port = s.port := by
  cases b <;> rfl

@[simp] theorem setInput_settling (s : State) (b : Bank) (v : Reg256) : (s.setInput b v).settling = s.settling := by
  cases b <;> rfl

@[simp] theorem answerWrite_base (r : Resp) (s : State) : (answerWrite r s).base = s.base := rfl

@[simp] theorem answerWrite_bank (r : Resp) (s : State) (b : Bank) : (answerWrite r s).bank b = s.bank b := by
  cases b <;> rfl

theorem writeTarget_input_of_idle {s : State} {b : Bank} (hb : b = .in0 ∨ b = .in1) (k : Fin 8) (w : Word)
    (hidle : s.busy = false) :
    writeTarget (.word b k) w s = .next (answerWrite .okay (s.setInput b (setRegWord (s.bank b) k w))) := by
  rcases hb with rfl | rfl
  · exact writeIn_idle hidle
  · exact writeIn_idle hidle

theorem writeTarget_input_of_busy {s : State} {b : Bank} (hb : b = .in0 ∨ b = .in1) (k : Fin 8) (w : Word)
    (hbusy : s.busy = true) : writeTarget (.word b k) w s = .next (reject .busy (answerWrite .okay s)) := by
  rcases hb with rfl | rfl
  · exact writeIn_busy hbusy
  · exact writeIn_busy hbusy

/-- An input register is never unspecified to a reader (R181). -/
theorem bankUnsettled_input {b : Bank} (hb : b = .in0 ∨ b = .in1) (s : State) : s.bankUnsettled b = false := by
  rcases hb with rfl | rfl <;> rfl

theorem ready_bank_input {b : Bank} (hb : b = .in0 ∨ b = .in1) (s : State) (rest : List Cycle) :
    (ready s rest).bank b = s.bank b := by
  rcases hb with rfl | rfl
  · exact ready_in0 s rest
  · exact ready_in1 s rest

/-- The host's write of a word to an input register while BUSY = 0. -/
theorem step_write_input {s : State} {rest : List Cycle} {addr : Nat} {b : Bank} {k : Fin 8} {w : Word}
    (hb : b = .in0 ∨ b = .in1) (hn : NextTransaction s (.write addr 4 w) rest)
    (hsel : busSelect s.base addr 4 = .target (.word b k)) (hidle : (ready s rest).busy = false) :
    step s = .next (answerWrite .okay ((ready s rest).setInput b (setRegWord (s.bank b) k w))) := by
  rw [step_write hn hsel, writeTarget_input_of_idle hb k w hidle, ready_bank_input hb]

/-- Settles O44: the write replaces one word of the register, by `regWord_setRegWord`. -/
theorem inputWriteReplacesOneWord : Obligations.InputWriteReplacesOneWord := by
  intro s rest k w hidle
  exact ⟨fun hn => ⟨_, step_write_input (.inl rfl) hn (busSelect_word s.base .in0 k) hidle,
      fun j => regWord_setRegWord s.in0 k j w⟩,
    fun hn => ⟨_, step_write_input (.inr rfl) hn (busSelect_word s.base .in1 k) hidle,
      fun j => regWord_setRegWord s.in1 k j w⟩⟩

/-- Below 0x40 an aligned offset is a word of an input register (20_memory.md R41). -/
theorem targetOf_input {off : Nat} (h4 : off % 4 = 0) (h : off < 0x40) :
    ∃ (b : Bank) (k : Fin 8), (b = .in0 ∨ b = .in1) ∧ off = bankOffset b + 4 * k.val := by
  rcases targetOf_cases off h4 with ⟨b, k, rfl, -⟩ | ⟨rfl, -⟩ | ⟨rfl, -⟩ | ⟨h', -⟩
  · refine ⟨b, k, ?_, rfl⟩
    cases b with
    | in0 => exact .inl rfl
    | in1 => exact .inr rfl
    | _ => simp only [bankOffset] at h; omega
  · omega
  · omega
  · omega

/-- Settles O45: the inputs and CMD refuse the write as BUSY; the rest of the window is read-only or unmapped. -/
theorem writesWhileBusyAreIgnored : Obligations.WritesWhileBusyAreIgnored := by
  intro s rest off w hbusy h4 hn
  have hperform := step_of_transaction hn
  rw [← ready_base s rest] at hperform
  refine ⟨?_, fun hlo hhi => ?_, fun hlo hhi => ?_⟩
  · rintro (hin | rfl)
    · obtain ⟨b, k, hb, rfl⟩ := targetOf_input h4 hin
      rw [← Nat.add_assoc] at hn
      rw [step_write hn (busSelect_word s.base b k), writeTarget_input_of_busy hb k w hbusy]
      rfl
    · exact (step_write_cmd hn).trans (submit_of_busy w hbusy)
  · exact hperform.trans (perform_write_of_readOnly w (by omega) (.inl ⟨hlo, hhi⟩))
  · rw [hperform]
    rcases Nat.lt_or_ge off 0xC8 with h | h
    · exact perform_write_of_readOnly w hhi (.inr ⟨hlo, h⟩)
    · exact perform_write_of_busError w (busSelect_eq_busError _ hhi (.inr (.inr h)))

/-- Settles O52: the write's next state has the word in the register, and no cycle but a write changes an input. -/
theorem nextReadSeesTheInputWrite : Obligations.NextReadSeesTheInputWrite := by
  intro s rest b k w hb hidle hset hport
  generalize haddr : s.base + bankOffset b + 4 * k.val = addr at hport
  have hsel : busSelect s.base addr 4 = .target (.word b k) := haddr ▸ busSelect_word s.base b k
  have hwrite := step_write_input hb ⟨hport, hset⟩ hsel (by rw [ready, tick_with_port]; exact hidle)
  have hread : NextTransaction (answerWrite .okay ((ready s (⟨true, some (.read addr 4)⟩ :: rest)).setInput b
      (setRegWord (s.bank b) k w))) (.read addr 4) rest := ⟨by simp, by simpa using hset⟩
  rw [runFor_succ_of_next hwrite, runFor_succ_of_next (step_read hread (by simpa using hsel))]
  refine ⟨_, rfl, ?_⟩
  rw [readTarget_of_settled k (bankUnsettled_input hb _), ready_bank_input hb, answerWrite_bank, bank_setInput hb,
    regWord_setRegWord, if_pos rfl, answerRead_answer]

end Sys2Proof.Machine
end

section
/-! What a command that is accepted and waited for leaves, as a function of the state it is accepted in
(40_field_arithmetic.md R90, 41_permutation.md R120 to R125). -/

namespace Sys2Proof.Machine

/-- The data registers and RCNT after a command accepted in `s` has completed; the rest is as in `s`. -/
def Instr.outcome (s : State) : Instr → State
  | .nop => s
  | .init => { s.setTriple (initTriple s.in0.toNat s.in1.toNat) with rcnt := 0 }
  | .round => { s.setTriple (roundFn s.triple s.rcnt.val) with rcnt := Fin.ofNat (NR + 1) (s.rcnt.val + 1) }
  | .permute => { s.setTriple (permFrom s.triple s.rcnt.val) with rcnt := Fin.last NR }
  | .hash => { s.setTriple (perm (initTriple s.in0.toNat s.in1.toNat)) with rcnt := Fin.last NR }
  | .modpow => { s with res := BitVec.ofNat 254 (Machine.modpow s.in0.toNat s.in1.toNat) }

/-- The block idle again after an accepted command: ERR = OK, and the last cycle had no transaction. -/
def State.idleAgain (s : State) : State :=
  { s with err := .ok, busy := false, inflight := none, answer := none }

/-- ROUND and PERMUTE lack a round at RCNT = 8 (41_permutation.md R121, R122). -/
def LacksRound (i : Instr) (s : State) : Prop := (i = .round ∨ i = .permute) ∧ s.rcnt = 8

/-- The completion of a faithful record, by its command and the registers alone. -/
theorem complete_eq_outcome {op : Op} {s : State} (h : op.Faithful s) :
    complete op s = retire (Instr.outcome s op.instr) := by
  cases op with
  | nop => rfl
  | init x y => obtain ⟨rfl, rfl⟩ := h; rfl
  | round v k w =>
    obtain ⟨rfl, hk, hw⟩ := h
    have hsucc : k.succ = Fin.ofNat (NR + 1) (s.rcnt.val + 1) := by
      rw [← hk]; exact Fin.ext (Nat.mod_eq_of_lt (Nat.succ_lt_succ k.isLt)).symm
    simp only [complete, completeRound, hw, hsucc, Op.instr, Instr.outcome, ← hk, Fin.val_castSucc]
  | permute v k w =>
    obtain ⟨rfl, hk, hw⟩ := h
    simp only [complete, completePermute, hw, Op.instr, Instr.outcome, ← hk, Fin.val_castSucc]
  | hash x y w =>
    obtain ⟨rfl, rfl, hw⟩ := h
    simp only [complete, completeHash, hw, Op.instr, Instr.outcome]
  | modpow b e w =>
    obtain ⟨rfl, rfl, hw⟩ := h
    simp only [complete, completeModpow, hw, Op.instr, Instr.outcome]

@[simp] theorem Op.instr_advanceN (n : Nat) (op : Op) : (op.advanceN n).instr = op.instr := by
  induction n generalizing op with
  | zero => rfl
  | succ n ih => exact (ih op.advance).trans op.instr_advance

/-- After its latency an accepted command has completed, however far its hidden progress was (R177). -/
theorem runFor_accept {op : Op} {s : State} (n : Nat) (hq : QuietIdle s) (hop : op.Faithful s) :
    runFor (n + 1) (accept (n + 1) op s) = .next (Instr.outcome s op.instr).idleAgain := by
  obtain ⟨-, hset, hp⟩ := hq
  rw [runFor_completes (s := accept (n + 1) op s) n hset hp rfl, complete_eq_outcome ((hop.accept _ _).advanceN n),
    op.instr_advanceN]
  cases op.instr <;> rfl

theorem latency_pos (i : Instr) (s : State) : ∃ n, latency i s = n + 1 := by
  cases i with
  | permute =>
    simp only [latency]
    split
    · exact ⟨_, rfl⟩
    · exact ⟨0, rfl⟩
  | _ => exact ⟨_, rfl⟩

/-- A command that lacks no round, from an idle block to its completion. -/
theorem runCommand_accepted {i : Instr} {s : State} (hq : QuietIdle s) (h : ¬ LacksRound i s) :
    runCommand (latency i s) i s = .next (Instr.outcome s i).idleAgain := by
  obtain ⟨op, rfl, hop, hexec⟩ := exec_accepts hq.1 h
  obtain ⟨n, hn⟩ := latency_pos op.instr s
  simp only [runCommand, hexec, hn, runFor_accept n hq hop]

/-- With no record in flight, waiting changes only the answer. -/
theorem runFor_idle (n : Nat) {s : State} (hset : s.settling = false) (hp : s.port = []) (hf : s.inflight = none) :
    runFor (n + 1) s = .next { s with answer := none } := by
  have hstep : ∀ u : State, u.settling = false → u.port = [] → u.inflight = none →
      step u = .next { u with answer := none } := fun u hset hp hf => by
    rw [step_of_quiet hset hp, tick_of_inflight_none hf]
  induction n generalizing s with
  | zero => rw [runFor_succ_of_next (hstep s hset hp hf)]; rfl
  | succ n ih =>
    rw [runFor_succ_of_next (hstep s hset hp hf)]
    exact ih (s := { s with answer := none }) hset hp hf

/-- A command that lacks a round is rejected, and waiting after it changes nothing more. -/
theorem runCommand_rejected {i : Instr} {s : State} (hq : QuietIdle s) (hf : s.inflight = none) (h : LacksRound i s) :
    runCommand (latency i s) i s = .next { s with err := .seq, answer := none } := by
  obtain ⟨hidle, hset, hp⟩ := hq
  obtain ⟨n, hn⟩ := latency_pos i s
  simp only [runCommand, exec_of_no_round_left hidle h.1 h.2, hn]
  exact runFor_idle n hset hp hf

/-! ROUND, PERMUTE and MODPOW -/

theorem not_lacksRound_of_castSucc (i : Instr) {s : State} {k : Fin 8} (h : s.rcnt = k.castSucc) :
    ¬ LacksRound i s := by
  rintro ⟨-, h8⟩
  exact absurd (h ▸ h8 : k.castSucc = Fin.last 8) (Fin.castSucc_lt_last k).ne

theorem withRoundLeft_of_castSucc {s : State} {k : Fin 8} (h : s.rcnt = k.castSucc) (f : Fin NR → State) :
    withRoundLeft s f = .next (f k) := by
  have hk : s.rcnt.val = k.val := congrArg Fin.val h
  have hlt : s.rcnt.val < NR := hk ▸ k.isLt
  rw [withRoundLeft, dif_pos hlt]
  exact congrArg (fun j => Host.Outcome.next (f j)) (Fin.ext hk)

theorem exec_round_of_castSucc {s : State} {k : Fin 8} (hb : s.busy = false) (h : s.rcnt = k.castSucc) :
    exec .round s = .next (accept (latRound s.params) (captureRound k s) s) :=
  (whenIdle_of_idle hb _).trans (withRoundLeft_of_castSucc h _)

theorem exec_permute_of_castSucc {s : State} {k : Fin 8} (hb : s.busy = false) (h : s.rcnt = k.castSucc) :
    exec .permute s = .next (accept (latPermute s.params k) (capturePermute k s) s) :=
  (whenIdle_of_idle hb _).trans (withRoundLeft_of_castSucc h _)

theorem latency_permute_of_castSucc {s : State} {k : Fin 8} (h : s.rcnt = k.castSucc) :
    latency .permute s = latPermute s.params k := by
  have hk : s.rcnt.val = k.val := congrArg Fin.val h
  have hlt : s.rcnt.val < NR := hk ▸ k.isLt
  rw [latency, dif_pos hlt]
  exact congrArg (latPermute s.params) (Fin.ext hk)

theorem exec_modpow_of_idle {s : State} (h : s.busy = false) :
    exec .modpow s = .next (accept (latModpow s.params s.in1) (captureModpow s) s) :=
  whenIdle_of_idle h _

theorem roundFn_zero : roundFn ⟨0, 0, 0⟩ 0 = ⟨277, 308, 519⟩ := by decide

theorem outcome_round_triple (s : State) : (Instr.outcome s .round).triple = roundFn s.triple s.rcnt.val :=
  triple_setTriple s (roundFn_inFp _ _)

theorem outcome_round_rcnt {s : State} {k : Fin 8} (h : s.rcnt = k.castSucc) :
    (Instr.outcome s .round).rcnt.val = k.val + 1 := by
  simp only [Instr.outcome, h, Fin.val_castSucc]
  exact Nat.mod_eq_of_lt (Nat.succ_lt_succ k.isLt)

theorem outcome_permute_triple {s : State} {k : Fin 8} (h : s.rcnt = k.castSucc) :
    (Instr.outcome s .permute).triple = permFrom s.triple k.val := by
  have hk : s.rcnt.val = k.val := congrArg Fin.val h
  simp only [Instr.outcome, hk]
  exact triple_setTriple s (permFrom_inFp_of_lt k.isLt _)

/-- Settles O26: the outcome of ROUND is the round of index RCNT. -/
theorem roundAppliesOneRound : Obligations.RoundAppliesOneRound := by
  refine ⟨decode_encode .round, fun s => ⟨exec_of_busy .round, fun hb => exec_of_no_round_left hb (.inl rfl),
    fun hb k hk => ⟨exec_round_of_castSucc hb hk, fun hq => ?_⟩, roundFn_zero⟩⟩
  refine ⟨_, runCommand_accepted hq (not_lacksRound_of_castSucc .round hk), ?_, outcome_round_rcnt hk, rfl⟩
  exact (outcome_round_triple s).trans (by rw [hk]; rfl)

/-- Settles O27: the outcome of PERMUTE is the rounds from index RCNT on; from 7 that is one round. -/
theorem permuteAppliesTheRemainingRounds : Obligations.PermuteAppliesTheRemainingRounds := by
  refine ⟨decode_encode .permute, fun s => ⟨exec_of_busy .permute, fun hb => exec_of_no_round_left hb (.inr rfl),
    fun hb k hk => ⟨exec_permute_of_castSucc hb hk, fun hq => ?_⟩⟩⟩
  have hrun := runCommand_accepted hq (not_lacksRound_of_castSucc .permute hk)
  rw [latency_permute_of_castSucc hk] at hrun
  have htriple := outcome_permute_triple hk
  refine ⟨_, hrun, htriple, ?_, ?_, rfl⟩
  · rintro rfl; exact htriple
  · rintro rfl; exact htriple

/-- Settles O29: the outcome of MODPOW is the power of the loop. -/
theorem modpowWritesThePowerToRes : Obligations.ModpowWritesThePowerToRes := by
  refine ⟨decode_encode .modpow, fun s => ⟨exec_of_busy .modpow, exec_modpow_of_idle, fun hq => ?_⟩⟩
  refine ⟨_, runCommand_accepted (i := .modpow) hq (by simp [LacksRound]), ?_, rfl⟩
  rw [← modpow_eq]
  exact toNat_ofNat_of_lt_P (modpow_lt _ _)

/-! Every command -/

/-- Settles O30: of the three answers only an acceptance touches BUSY and the record, and it makes ERR = OK. -/
theorem commandWriteFrame : Obligations.CommandWriteFrame := by
  intro i s t h
  rcases exec_cases i s with ⟨-, he⟩ | ⟨-, -, -, he⟩ | ⟨hb, -, op, n, -, -, -, -, he⟩
  · obtain rfl := Host.Outcome.next.inj (h.symm.trans he)
    exact ⟨rfl, fun _ => ⟨rfl, rfl⟩, nofun⟩
  · obtain rfl := Host.Outcome.next.inj (h.symm.trans he)
    exact ⟨rfl, fun _ => ⟨rfl, rfl⟩, nofun⟩
  · obtain rfl := Host.Outcome.next.inj (h.symm.trans he)
    exact ⟨rfl, fun hne => absurd rfl hne, fun _ => ⟨hb, rfl⟩⟩

/-- Settles O31: the three answers, in the order BUSY, SEQ, OK. -/
theorem everyCommandIsDecided : Obligations.EveryCommandIsDecided := by
  intro i s
  rcases exec_cases i s with ⟨hb, he⟩ | ⟨hb, hi, hr, he⟩ | ⟨hb, hround, op, n, -, -, -, -, he⟩
  · exact ⟨_, he, by simp [hb]⟩
  · exact ⟨_, he, by simp [hb, hi, hr]⟩
  · exact ⟨_, he, by simp only [hb, if_neg hround]; rfl⟩

theorem outcome_with_params (i : Instr) (s : State) (p : Params) :
    (Instr.outcome { s with params := p } i).idleAgain = { (Instr.outcome s i).idleAgain with params := p } := by
  cases i <;> rfl

/-- Settles O33: neither the outcome nor the rejection reads a parameter. -/
theorem parametersDoNotShowInResults : Obligations.ParametersDoNotShowInResults := by
  intro i s t p hq hf hrun
  by_cases h : LacksRound i s
  · rw [runCommand_rejected hq hf h] at hrun
    obtain rfl := Host.Outcome.next.inj hrun
    exact runCommand_rejected (s := { s with params := p }) hq hf h
  · rw [runCommand_accepted hq h] at hrun
    obtain rfl := Host.Outcome.next.inj hrun
    exact (runCommand_accepted (s := { s with params := p }) hq h).trans (congrArg _ (outcome_with_params i s p))

end Sys2Proof.Machine
end

section
/-! The command sequences that make the hash (41_permutation.md R125). -/

namespace Sys2Proof.Machine

/-- `t` is the block at rest after commands run from `s`: its inputs as in `s`, this triple, and `k` rounds done. -/
structure Reached (s t : State) (v : Triple) (k : Nat) : Prop where
  quiet : QuietIdle t
  triple : t.triple = v
  rcnt : t.rcnt.val = k
  in0 : t.in0 = s.in0
  in1 : t.in1 = s.in1

theorem outcome_quietIdle {s : State} (hq : QuietIdle s) (i : Instr) : QuietIdle (Instr.outcome s i).idleAgain := by
  obtain ⟨-, hset, hp⟩ := hq
  cases i <;> exact ⟨rfl, hset, hp⟩

theorem runCommands_cons {i : Instr} {s : State} (is : List Instr) (hq : QuietIdle s) (h : ¬ LacksRound i s) :
    runCommands (i :: is) s = runCommands is (Instr.outcome s i).idleAgain := by
  simp only [runCommands, runCommand_accepted hq h]

theorem runCommands_append (is js : List Instr) (s : State) :
    runCommands (is ++ js) s = (runCommands is s).bind (runCommands js) := by
  induction is generalizing s with
  | nil => rfl
  | cons i is ih =>
    rw [List.cons_append, runCommands, runCommands]
    split
    · exact ih _
    · rfl
    · rfl

theorem reached_init {s : State} (hq : QuietIdle s) :
    Reached s (Instr.outcome s .init).idleAgain (initTriple s.in0.toNat s.in1.toNat) 0 :=
  ⟨outcome_quietIdle hq .init, triple_setTriple s (initTriple_inFp _ _), rfl, rfl, rfl⟩

theorem reached_hash {s : State} (hq : QuietIdle s) :
    Reached s (Instr.outcome s .hash).idleAgain (perm (initTriple s.in0.toNat s.in1.toNat)) 8 :=
  ⟨outcome_quietIdle hq .hash, triple_setTriple s (perm_inFp (initTriple_inFp _ _)), rfl, rfl, rfl⟩

/-- `n` ROUNDs, while there are that many left. -/
theorem reached_rounds {n k : Nat} {s t : State} {v : Triple} (h : Reached s t v k) (hn : k + n ≤ 8) :
    ∃ u, runCommands (List.replicate n .round) t = some u ∧ Reached s u (rounds n k v) (k + n) := by
  induction n generalizing t v k with
  | zero => exact ⟨t, rfl, h⟩
  | succ n ih =>
    have hk : t.rcnt = (⟨k, by omega⟩ : Fin 8).castSucc := Fin.ext h.rcnt
    have hnext : Reached s (Instr.outcome t .round).idleAgain (roundFn v k) (k + 1) :=
      ⟨outcome_quietIdle h.quiet .round, (outcome_round_triple t).trans (by rw [h.triple, h.rcnt]),
        outcome_round_rcnt hk, h.in0, h.in1⟩
    obtain ⟨u, hrun, hu⟩ := ih hnext (by omega)
    refine ⟨u, ?_, by rw [rounds_succ, ← Nat.add_assoc, Nat.add_right_comm]; exact hu⟩
    rw [List.replicate_succ, runCommands_cons _ h.quiet (not_lacksRound_of_castSucc .round hk), hrun]

/-- PERMUTE finishes the rounds that are left. -/
theorem reached_permute {k : Nat} {s t : State} {v : Triple} (h : Reached s t v k) (hk : k < 8) :
    ∃ u, runCommands [.permute] t = some u ∧ Reached s u (permFrom v k) 8 := by
  have hk' : t.rcnt = (⟨k, hk⟩ : Fin 8).castSucc := Fin.ext h.rcnt
  refine ⟨_, runCommands_cons [] h.quiet (not_lacksRound_of_castSucc .permute hk'), outcome_quietIdle h.quiet .permute,
    ?_, rfl, h.in0, h.in1⟩
  exact (outcome_permute_triple hk').trans (by rw [h.triple])

/-- Rounds and then the remaining ones are the permutation (R109). -/
theorem permFrom_rounds {k : Nat} (hk : k ≤ 8) (v : Triple) : permFrom (rounds k 0 v) k = perm v := by
  have hsplit := rounds_add k (NR - k) 0 v
  rw [Nat.add_sub_cancel' hk, Nat.zero_add] at hsplit
  exact hsplit.symm

/-- Settles O32: each sequence reaches the permutation of the initial triple, all at once, from INIT in one PERMUTE, or
round by round. -/
theorem commandSequencesAreEquivalent : Obligations.CommandSequencesAreEquivalent := by
  intro s hq
  have hinit := reached_init hq
  have hcons := fun is => runCommands_cons (i := .init) is hq (by simp [LacksRound])
  refine ⟨perm (initTriple s.in0.toNat s.in1.toNat), fun cs hcs => ?_⟩
  suffices h : ∃ t, runCommands cs s = some t ∧ Reached s t (perm (initTriple s.in0.toNat s.in1.toNat)) 8 by
    obtain ⟨t, hrun, ht⟩ := h
    exact ⟨t, hrun, ht.triple, Fin.ext ht.rcnt, ht.quiet.1, ht.in0, ht.in1⟩
  rcases hcs with rfl | rfl | rfl | ⟨k, -, hk, rfl⟩
  · exact ⟨_, runCommands_cons [] hq (by simp [LacksRound]), reached_hash hq⟩
  · rw [hcons]; exact reached_permute hinit (by decide)
  · rw [hcons]; exact reached_rounds hinit (by decide)
  · obtain ⟨t, hrun, ht⟩ := reached_rounds (n := k) hinit (by omega)
    rw [hcons, runCommands_append, hrun, ← permFrom_rounds (show k ≤ 8 by omega)]
    rw [Nat.zero_add] at ht
    exact reached_permute ht (by omega)

end Sys2Proof.Machine
end

section
/-! Decimal numerals written and read back (45_host_contract.md R142, R143). -/

namespace Sys2Proof.Machine

theorem isDecimal_digit {d : Nat} (h : d < 10) : isDecimal (Char.ofNat (48 + d)) = true := by
  have key : ∀ d : Fin 10, isDecimal (Char.ofNat (48 + d.val)) = true := by decide
  exact key ⟨d, h⟩

theorem digitValue_digit {d : Nat} (h : d < 10) : digitValue (Char.ofNat (48 + d)) = d := by
  have key : ∀ d : Fin 10, digitValue (Char.ofNat (48 + d.val)) = d.val := by decide
  exact key ⟨d, h⟩

theorem digit_ne_zero {d : Nat} (h : d < 10) (h0 : d ≠ 0) : Char.ofNat (48 + d) ≠ '0' := by
  intro he
  have hd := digitValue_digit h
  rw [he] at hd
  exact h0 hd.symm

theorem decimalDigits_of_lt_ten {n : Nat} (h : n < 10) (fuel : Nat) (rest : List Char) :
    decimalDigits (fuel + 1) n rest = Char.ofNat (48 + n) :: rest := by
  rw [decimalDigits, if_pos h]

theorem decimalDigits_of_ten_le {n : Nat} (h : ¬ n < 10) (fuel : Nat) (rest : List Char) :
    decimalDigits (fuel + 1) n rest = decimalDigits fuel (n / 10) (Char.ofNat (48 + n % 10) :: rest) := by
  rw [decimalDigits, if_neg h]

/-- A digit less is at least a bit less, so the fuel lasts. -/
theorem div_ten_lt {n fuel : Nat} (h : n < 2 ^ (fuel + 1)) : n / 10 < 2 ^ fuel := by
  rw [Nat.pow_succ] at h
  omega

/-- Reading the digits of `n` and then `rest` is reading `rest` from the value `n` on. -/
theorem foldl_decimalDigits {fuel n : Nat} (rest : List Char) (h : n < 2 ^ fuel) :
    (decimalDigits fuel n rest).foldl (fun n c => 10 * n + digitValue c) 0 =
      rest.foldl (fun n c => 10 * n + digitValue c) n := by
  induction fuel generalizing n rest with
  | zero =>
    obtain rfl : n = 0 := by simpa using h
    rfl
  | succ fuel ih =>
    by_cases h10 : n < 10
    · rw [decimalDigits_of_lt_ten h10, List.foldl_cons, digitValue_digit h10, Nat.mul_zero, Nat.zero_add]
    · rw [decimalDigits_of_ten_le h10, ih _ (div_ten_lt h), List.foldl_cons,
        digitValue_digit (Nat.mod_lt n (by decide)), Nat.div_add_mod]

theorem decimalDigits_all {rest : List Char} (fuel n : Nat) (h : rest.all isDecimal = true) :
    (decimalDigits fuel n rest).all isDecimal = true := by
  induction fuel generalizing n rest with
  | zero => exact h
  | succ fuel ih =>
    by_cases h10 : n < 10
    · rw [decimalDigits_of_lt_ten h10, List.all_cons, isDecimal_digit h10, h]; rfl
    · rw [decimalDigits_of_ten_le h10]
      exact ih _ (by rw [List.all_cons, isDecimal_digit (Nat.mod_lt n (by decide)), h]; rfl)

/-- The digits of a number other than 0 begin with a digit other than 0. -/
theorem decimalDigits_head {fuel n : Nat} (rest : List Char) (h : n < 2 ^ fuel) (h0 : n ≠ 0) :
    ∃ d, d < 10 ∧ d ≠ 0 ∧ (decimalDigits fuel n rest).head? = some (Char.ofNat (48 + d)) := by
  induction fuel generalizing n rest with
  | zero => exact absurd (by simpa using h) h0
  | succ fuel ih =>
    by_cases h10 : n < 10
    · exact ⟨n, h10, h0, by rw [decimalDigits_of_lt_ten h10]; rfl⟩
    · rw [decimalDigits_of_ten_le h10]
      exact ih _ (div_ten_lt h) (by omega)

theorem decimal_all (n : Nat) : (decimal n).all isDecimal = true := decimalDigits_all _ n rfl

theorem decimal_head {n : Nat} (h : n ≠ 0) : ∃ d, d < 10 ∧ d ≠ 0 ∧ (decimal n).head? = some (Char.ofNat (48 + d)) :=
  decimalDigits_head [] Nat.lt_log2_self h

theorem decimal_zero : decimal 0 = ['0'] := rfl

theorem decimal_ne_nil (n : Nat) : decimal n ≠ [] := by
  by_cases h : n = 0
  · rw [h, decimal_zero]; exact List.cons_ne_nil _ _
  · obtain ⟨d, -, -, hhead⟩ := decimal_head h
    intro hnil
    rw [hnil] at hhead
    cases hhead

/-- A string of digits, with nothing for the parser to remove, is read from left to right. -/
theorem parseNumeral_of_digits {l : List Char} (hne : l ≠ []) (hd : l.all isDecimal = true) :
    parseNumeral l = .ok (l.foldl (fun n c => 10 * n + digitValue c) 0) := by
  have hfilter : l.filter (· != '.') = l := by
    rw [List.filter_eq_self]
    intro c hc
    have hdigit := List.all_eq_true.1 hd c hc
    rw [bne_iff_ne]
    rintro rfl
    exact absurd hdigit (by decide)
  simp [parseNumeral, hfilter, hne, hd]

theorem parseNumeral_decimal (n : Nat) : parseNumeral (decimal n) = .ok n := by
  rw [parseNumeral_of_digits (decimal_ne_nil n) (decimal_all n), decimal, foldl_decimalDigits [] Nat.lt_log2_self]
  rfl

/-- Settles O53: the digits fold back to the number, and the leading one is not 0. -/
theorem decimalFormIsCanonical : Obligations.DecimalFormIsCanonical := by
  refine fun n => ⟨parseNumeral_decimal n, decimal_all n, decimal_zero, fun h hzero => ?_⟩
  obtain ⟨d, hd, hd0, hhead⟩ := decimal_head h
  exact digit_ne_zero hd hd0 (Option.some.inj (hhead.symm.trans hzero))

end Sys2Proof.Machine
end

section
/-! The host's transactions while the other agents only read: a transaction's effect, up to what those reads change
(20_memory.md R49, R52, 30_encoding.md R66, R67). -/

namespace Sys2Proof.Machine

/-- `t` is `s` but for what reads change: the answer, the draw counter, and listed cycles used up from the front. -/
inductive UpToReads (s : State) : State → Prop
  | mk (a : Option Answer) (d : Nat) {used rest : List Cycle} :
      s.port = used ++ rest → UpToReads s (s.withOutside a d rest)

theorem UpToReads.refl (s : State) : UpToReads s s := .mk s.answer s.draws (List.nil_append s.port).symm

theorem UpToReads.trans {s t u : State} (h : UpToReads s t) (h' : UpToReads t u) : UpToReads s u := by
  obtain @⟨a, d, used, rest, hp⟩ := h
  obtain @⟨a', d', used', rest', hp'⟩ := h'
  have happend : s.port = used ++ used' ++ rest' := by
    rw [hp, List.append_assoc]; exact congrArg (used ++ ·) hp'
  exact .mk a' d' happend

/-- Another answer, or another count of draws, is no more than what reads change. -/
theorem UpToReads.answered {s t : State} (h : UpToReads s t) (a : Option Answer) (d : Nat) :
    UpToReads s { t with answer := a, draws := d } := by
  obtain ⟨-, -, hp⟩ := h
  exact .mk a d hp

/-- Every other agent only reads from here on, and the first cycle after reset is over. -/
def Undisturbed (s : State) : Prop := s.settling = false ∧ OnlyReads s

theorem UpToReads.undisturbed {s t : State} (h : UpToReads s t) (hu : Undisturbed s) : Undisturbed t := by
  obtain ⟨a, d, hp⟩ := h
  obtain ⟨hset, ho⟩ := hu
  exact ⟨hset, fun c hc => ho c (by rw [hp]; exact List.mem_append_right _ hc)⟩

/-- What one tick keeps, any number of them keeps. -/
theorem iterate_tick_keeps {α : Type} {f : State → α} (h : ∀ s, f (tick s) = f s) (k : Nat) (s : State) :
    f (tick^[k] s) = f s := by
  induction k generalizing s with
  | zero => rfl
  | succ k ih => rw [Function.iterate_succ_apply, ih, h]

/-- The host's transaction is performed after the engine's part of some cycles, at least one, and some reads. -/
theorem issue_undisturbed (x : Transaction) {s : State} (h : Undisturbed s) :
    ∃ k u, UpToReads (tick^[k + 1] s) u ∧ issue x s = perform x u := by
  obtain ⟨k, a, d, used, rest, hp, hissue⟩ := issue_onlyReads x h.1 h.2
  exact ⟨k, _, .mk a d ((iterate_tick_keeps tick_port _ s).trans hp), hissue⟩

theorem UpToReads.base_eq {s t : State} (h : UpToReads s t) : t.base = s.base := by
  obtain ⟨a, d, -⟩ := h; rfl

theorem issue_read {s : State} {off : Nat} {x : Target} (h : Undisturbed s)
    (hsel : busSelect s.base (s.base + off) 4 = .target x) :
    ∃ k u, UpToReads (tick^[k + 1] s) u ∧ issue (.read (s.base + off) 4) s = .next (readTarget x u) := by
  obtain ⟨k, u, hu, hissue⟩ := issue_undisturbed (.read (s.base + off) 4) h
  refine ⟨k, u, hu, hissue.trans (perform_read_of_target ?_)⟩
  rw [hu.base_eq, iterate_tick_keeps tick_base]
  exact hsel

theorem issue_write {s : State} {off : Nat} {x : Target} (w : Word) (h : Undisturbed s)
    (hsel : busSelect s.base (s.base + off) 4 = .target x) :
    ∃ k u, UpToReads (tick^[k + 1] s) u ∧ issue (.write (s.base + off) 4 w) s = writeTarget x w u := by
  obtain ⟨k, u, hu, hissue⟩ := issue_undisturbed (.write (s.base + off) 4 w) h
  refine ⟨k, u, hu, hissue.trans (perform_write_of_target w ?_)⟩
  rw [hu.base_eq, iterate_tick_keeps tick_base]
  exact hsel

theorem hostRead_of_issue {s t : State} {off : Nat} {w : Word} (h : issue (.read (s.base + off) 4) s = .next t)
    (ha : t.answer = some (.read w .okay)) : hostRead off s = .ok (w, t) := by
  simp only [hostRead, h, ha]

theorem hostWrite_of_issue {s t : State} {off : Nat} {w : Word} (h : issue (.write (s.base + off) 4 w) s = .next t)
    (ha : t.answer = some (.write .okay)) : hostWrite off w s = .ok t := by
  simp only [hostWrite, h, ha, if_true]

/-- A STATUS read shows ERR and BUSY of the state the engine has made by then. -/
theorem hostRead_status {s : State} (h : Undisturbed s) :
    ∃ k r t, hostRead statusOffset s = .ok (statusWordWith r (tick^[k + 1] s), t) ∧
      UpToReads (tick^[k + 1] s) t := by
  obtain ⟨k, u, hu, hissue⟩ := issue_read h (busSelect_status s.base)
  obtain ⟨r, d, hread, -, -⟩ := readTarget_status u
  have hword : statusWordWith r u = statusWordWith r (tick^[k + 1] s) := by obtain ⟨a, d, -⟩ := hu; rfl
  rw [hread, hword] at hissue
  exact ⟨k, r, _, hostRead_of_issue hissue rfl, hu.answered _ _⟩

end Sys2Proof.Machine
end

section
/-! The host forms on an idle block: words written to an input register, words read from a register, and a wait that
finds BUSY = 0 (30_encoding.md R67). -/

namespace Sys2Proof.Machine

/-- No command is in flight, and the other agents only read. -/
structure HostIdle (s : State) : Prop where
  busy : s.busy = false
  inflight : s.inflight = none
  undisturbed : Undisturbed s

theorem UpToReads.hostIdle {s t : State} (h : UpToReads s t) (hs : HostIdle s) : HostIdle t := by
  have hu := h.undisturbed hs.undisturbed
  obtain ⟨a, d, -⟩ := h
  exact ⟨hs.busy, hs.inflight, hu⟩

theorem HostIdle.setInput {s : State} (h : HostIdle s) (b : Bank) (v : Reg256) : HostIdle (s.setInput b v) := by
  obtain ⟨hb, hf, hset, ho⟩ := h
  cases b <;> exact ⟨hb, hf, hset, ho⟩

/-- On an idle block the engine does nothing before the transaction. -/
theorem HostIdle.iterate_tick {s : State} (h : HostIdle s) (k : Nat) : tick^[k] s = s := iterate_tick_idle k h.inflight

theorem HostIdle.bankUnsettled {s : State} (h : HostIdle s) (b : Bank) : s.bankUnsettled b = false := by
  cases b <;> simp [State.bankUnsettled, State.stateUnsettled, State.resUnsettled, h.busy]

theorem UpToReads.bank_eq {s t : State} (h : UpToReads s t) (b : Bank) : t.bank b = s.bank b := by
  obtain ⟨a, d, -⟩ := h
  cases b <;> rfl

theorem busSelect_word_offset (base : Nat) (b : Bank) (k : Fin 8) :
    busSelect base (base + (bankOffset b + 4 * k.val)) 4 = .target (.word b k) := by
  rw [← Nat.add_assoc]; exact busSelect_word base b k

/-! Reading -/

theorem hostRead_word {s : State} (h : HostIdle s) (b : Bank) (k : Fin 8) :
    ∃ t, hostRead (bankOffset b + 4 * k.val) s = .ok (regWord (s.bank b) k, t) ∧ UpToReads s t := by
  obtain ⟨n, u, hu, hissue⟩ := issue_read h.undisturbed (busSelect_word_offset s.base b k)
  rw [h.iterate_tick] at hu
  rw [readTarget_of_settled k ((hu.hostIdle h).bankUnsettled b), hu.bank_eq] at hissue
  exact ⟨_, hostRead_of_issue hissue rfl, hu.answered _ _⟩

theorem readWords_idle (b : Bank) (ks : List (Fin 8)) (sum : Nat) {s : State} (h : HostIdle s) :
    ∃ t, readWords (bankOffset b) ks sum s =
        .ok (sum + (ks.map fun k => (regWord (s.bank b) k).toNat * 2 ^ (32 * k.val)).sum, t) ∧ UpToReads s t := by
  induction ks generalizing sum s with
  | nil => exact ⟨s, rfl, .refl s⟩
  | cons k ks ih =>
    obtain ⟨t, hread, ht⟩ := hostRead_word h b k
    obtain ⟨u, hreads, hu⟩ := ih (sum + (regWord (s.bank b) k).toNat * 2 ^ (32 * k.val)) (ht.hostIdle h)
    refine ⟨u, ?_, ht.trans hu⟩
    simp only [readWords, hread, hreads, ht.bank_eq, List.map_cons, List.sum_cons, Nat.add_assoc]

/-- `rd256` returns the register (20_memory.md R42). -/
theorem rd256_idle (b : Bank) {s : State} (h : HostIdle s) :
    ∃ t, rd256 b s = .ok ((s.bank b).toNat, t) ∧ UpToReads s t := by
  obtain ⟨t, hreads, ht⟩ := readWords_idle b wordOrder 0 h
  refine ⟨t, hreads.trans ?_, ht⟩
  rw [Nat.zero_add]
  exact congrArg (fun v => Except.ok (v, t)) (assemble_regWord (s.bank b))

/-! Writing -/

theorem UpToReads.setInput {s t : State} (h : UpToReads s t) (b : Bank) (v : Reg256) :
    UpToReads (s.setInput b v) (t.setInput b v) := by
  obtain ⟨a, d, hp⟩ := h
  cases b <;> exact .mk a d hp

theorem setInput_setInput (s : State) (b : Bank) (v v' : Reg256) :
    (s.setInput b v).setInput b v' = s.setInput b v' := by
  cases b <;> rfl

theorem setInput_bank (s : State) (b : Bank) : s.setInput b (s.bank b) = s := by
  cases b <;> rfl

theorem hostWrite_input {s : State} (h : HostIdle s) {b : Bank} (hb : b = .in0 ∨ b = .in1) (k : Fin 8) (w : Word) :
    ∃ t, hostWrite (bankOffset b + 4 * k.val) w s = .ok t ∧
      UpToReads (s.setInput b (setRegWord (s.bank b) k w)) t := by
  obtain ⟨n, u, hu, hissue⟩ := issue_write w h.undisturbed (busSelect_word_offset s.base b k)
  rw [h.iterate_tick] at hu
  rw [writeTarget_input_of_idle hb k w (hu.hostIdle h).busy, hu.bank_eq] at hissue
  exact ⟨_, hostWrite_of_issue hissue rfl, (hu.setInput b _).answered _ _⟩

/-- Each listed word of the register is written, and the others stay. -/
theorem writeWords_idle {b : Bank} (hb : b = .in0 ∨ b = .in1) (x : Reg256) (ks : List (Fin 8)) {s : State}
    (h : HostIdle s) :
    ∃ t v, writeWords (bankOffset b) x ks s = .ok t ∧ UpToReads (s.setInput b v) t ∧
      ∀ j, regWord v j = if j ∈ ks then regWord x j else regWord (s.bank b) j := by
  induction ks generalizing s with
  | nil => exact ⟨s, s.bank b, rfl, by rw [setInput_bank]; exact .refl s, fun j => by simp⟩
  | cons k ks ih =>
    obtain ⟨t, hwrite, ht⟩ := hostWrite_input h hb k (regWord x k)
    obtain ⟨u, v, hwrites, hu, hv⟩ := ih (ht.hostIdle (h.setInput b _))
    refine ⟨u, v, by simp only [writeWords, hwrite, hwrites], ?_, fun j => ?_⟩
    · have hset := ht.setInput b v
      rw [setInput_setInput] at hset
      exact hset.trans hu
    · rw [hv, ht.bank_eq, bank_setInput hb, regWord_setRegWord]
      by_cases hk : j = k
      · subst hk; simp
      · simp [hk]

/-- A register is known by its words. -/
theorem eq_of_regWord_eq {v x : Reg256} (h : ∀ k, regWord v k = regWord x k) : v = x := by
  apply BitVec.eq_of_toNat_eq
  rw [← assemble_regWord, ← assemble_regWord, funext h]

/-- `ld256` of an input register. -/
theorem ld256_idle {b : Bank} (hb : b = .in0 ∨ b = .in1) (x : Reg256) {s : State} (h : HostIdle s) :
    ∃ t, ld256 b x s = .ok t ∧ UpToReads (s.setInput b x) t := by
  obtain ⟨t, v, hwrites, ht, hv⟩ := writeWords_idle hb x wordOrder h
  have hall : ∀ j : Fin 8, j ∈ wordOrder := by decide
  obtain rfl : v = x := eq_of_regWord_eq fun k => by rw [hv, if_pos (hall k)]
  exact ⟨t, hwrites, ht⟩

/-! Waiting -/

/-- One poll, by the BUSY it sees. -/
theorem wait_succ_of_read {n : Nat} {s t u : State} {r : Fin (NR + 1)}
    (h : hostRead statusOffset s = .ok (statusWordWith r u, t)) :
    wait (n + 1) s = if u.busy then wait n t else .ok t := by
  simp only [wait, h, statusWordWith_busy]

theorem wait_idle {n : Nat} {s : State} (h : HostIdle s) : ∃ t, wait (n + 1) s = .ok t ∧ UpToReads s t := by
  obtain ⟨k, r, t, hread, ht⟩ := hostRead_status h.undisturbed
  rw [h.iterate_tick] at hread ht
  exact ⟨t, by simp [wait_succ_of_read hread, h.busy], ht⟩

end Sys2Proof.Machine
end

section
/-! A command the host waits for: each poll is at least one cycle of its latency (30_encoding.md R67,
70_reset_and_hazards.md R177). -/

namespace Sys2Proof.Machine

theorem retire_outcome_with_inflight (s : State) (f : Option InFlight) (i : Instr) :
    retire (Instr.outcome { s with inflight := f } i) = retire (Instr.outcome s i) := by
  cases i <;> rfl

/-- Reads leave the record in flight, and what it is compared with. -/
theorem UpToReads.record {s t : State} (h : UpToReads s t) :
    t.busy = s.busy ∧ t.inflight = s.inflight ∧ ∀ op : Op, op.Faithful s → op.Faithful t := by
  obtain ⟨a, d, -⟩ := h
  exact ⟨rfl, rfl, fun _ hop => hop.congr rfl rfl rfl rfl⟩

/-- A command's outcome reads nothing that reads change. -/
theorem UpToReads.outcome {s t : State} (h : UpToReads s t) (i : Instr) :
    UpToReads (retire (Instr.outcome s i)) (retire (Instr.outcome t i)) := by
  obtain ⟨a, d, hp⟩ := h
  cases i <;> exact .mk a d hp

/-- Fewer cycles than are left take as many off the latency. -/
theorem iterate_tick_of_lt {k m : Nat} {s : State} {op : Op} (hf : s.inflight = some ⟨op, m⟩) (hk : k < m) :
    tick^[k] s = { s with inflight := some ⟨op.advanceN k, m - k⟩ } := by
  induction k generalizing s op m with
  | zero => rw [Function.iterate_zero_apply, Nat.sub_zero, Op.advanceN, ← hf]
  | succ k ih =>
    rw [Function.iterate_succ_apply, tick_of_remaining hf (by omega), ih rfl (by omega), Nat.sub_sub, Nat.add_comm 1 k]
    rfl

/-- As many cycles as are left, or more, complete the command. -/
theorem iterate_tick_of_le {k m : Nat} {s : State} {op : Op} (hf : s.inflight = some ⟨op, m⟩) (hop : op.Faithful s)
    (hm : 1 ≤ m) (hk : m ≤ k) : tick^[k] s = retire (Instr.outcome s op.instr) := by
  induction k generalizing s op m with
  | zero => omega
  | succ k ih =>
    rw [Function.iterate_succ_apply]
    by_cases h1 : m ≤ 1
    · rw [tick_of_last hf h1, complete_eq_outcome hop, iterate_tick_idle k (retire_inflight _)]
    · have hnext := ih (s := { s with inflight := some ⟨op.advance, m - 1⟩ }) rfl (hop.advance.congr rfl rfl rfl rfl)
        (by omega) (by omega)
      rw [tick_of_remaining hf (by omega), hnext, op.instr_advance, retire_outcome_with_inflight]

/-- A wait with as many polls as the command in flight has cycles left ends with its outcome. -/
theorem wait_inflight {n m : Nat} {s : State} {op : Op} (hb : s.busy = true) (hf : s.inflight = some ⟨op, m⟩)
    (hop : op.Faithful s) (hm : 1 ≤ m) (hn : m ≤ n) (h : Undisturbed s) :
    ∃ t, wait n s = .ok t ∧ UpToReads (retire (Instr.outcome s op.instr)) t := by
  induction n generalizing s op m with
  | zero => omega
  | succ n ih =>
    obtain ⟨k, r, t, hread, ht⟩ := hostRead_status h
    rw [wait_succ_of_read hread]
    rcases Nat.lt_or_ge (k + 1) m with hlt | hle
    · rw [iterate_tick_of_lt hf hlt] at ht ⊢
      obtain ⟨hb', hf', hop'⟩ := ht.record
      have hout := ht.outcome op.instr
      rw [retire_outcome_with_inflight] at hout
      obtain ⟨u, hwait, hu⟩ := ih (hb'.trans hb) hf' (hop' _ ((hop.advanceN (k + 1)).congr rfl rfl rfl rfl)) (by omega)
        (by omega) (ht.undisturbed h)
      rw [op.instr_advanceN] at hu
      exact ⟨u, by simpa [hb] using hwait, hout.trans hu⟩
    · rw [iterate_tick_of_le hf hop hm hle] at ht ⊢
      exact ⟨t, by simp, ht⟩

theorem UpToReads.accept {s t : State} (h : UpToReads s t) (n : Nat) (op : Op) :
    UpToReads (accept n op s) (accept n op t) := by
  obtain ⟨a, d, hp⟩ := h
  exact .mk a d hp

/-- `cmd HASH` on an idle block is accepted. -/
theorem hostCmd_hash {s : State} (h : HostIdle s) :
    ∃ t, hostCmd .hash s = .ok t ∧ UpToReads (accept (latHash s.params) (captureHash s) s) t := by
  obtain ⟨k, u, hu, hissue⟩ := issue_write (encode .hash) h.undisturbed (busSelect_cmd s.base)
  rw [h.iterate_tick] at hu
  have hsubmit : writeTarget .cmd (encode .hash) u =
      .next (Machine.accept (latHash u.params) (captureHash u) (answerWrite .okay u)) :=
    (submit_of_ok (decode_encode .hash) _).trans (exec_hash_of_idle (hu.hostIdle h).busy)
  refine ⟨_, hostWrite_of_issue (hissue.trans hsubmit) rfl, ?_⟩
  have hrecord : latHash u.params = latHash s.params ∧ captureHash u = captureHash s := by
    obtain ⟨a, d, -⟩ := hu; exact ⟨rfl, rfl⟩
  rw [hrecord.1, hrecord.2]
  exact (hu.answered _ _).accept _ _

/-- HASH and its wait, with as many polls as its latency. -/
theorem cmdWait_hash {n : Nat} {s : State} (h : HostIdle s) (hn : latHash s.params ≤ n) :
    ∃ t, cmdWait n .hash s = .ok t ∧
      UpToReads (retire (Instr.outcome (accept (latHash s.params) (captureHash s) s) .hash)) t := by
  obtain ⟨t, hcmd, ht⟩ := hostCmd_hash h
  obtain ⟨hb, hf, hop⟩ := ht.record
  obtain ⟨u, hwait, hu⟩ := wait_inflight hb hf (hop _ ((captureHash_faithful s).accept _ _)) (Nat.le_add_left 1 _) hn
    (ht.undisturbed h.undisturbed)
  exact ⟨u, by simp only [cmdWait, hcmd, hwait], (ht.outcome .hash).trans hu⟩

end Sys2Proof.Machine
end

section
/-! The host driver (45_host_contract.md R140 to R146). -/

namespace Sys2Proof.Machine

/-- The block after the driver's HASH of `x` and `y` from `s`: idle with ERR = OK, the digest in S0, RES as it was, and
listed cycles used up from the front. -/
structure HashDone (s t : State) (x y : Reg256) : Prop where
  idle : HostIdle t
  err : t.err = .ok
  s0 : t.s0.toNat = H x.toNat y.toNat
  res : t.res = s.res
  port : ∃ used, s.port = used ++ t.port

theorem HashDone.upToReads {s t u : State} {x y : Reg256} (h : HashDone s t x y) (hu : UpToReads t u) :
    HashDone s u x y := by
  have hidle := hu.hostIdle h.idle
  obtain ⟨used, hused⟩ := h.port
  obtain ⟨a, d, hp⟩ := hu
  exact ⟨hidle, h.err, h.s0, h.res, used ++ _, by rw [hused, hp, List.append_assoc]; rfl⟩

/-- The outcome of HASH with the loaded inputs is the block the driver looks for. -/
theorem hashDone_outcome {s : State} (h : HostIdle s) (n : Nat) (op : Op) {x y : Reg256} (hx : s.in0 = x)
    (hy : s.in1 = y) : HashDone s (retire (Instr.outcome (accept n op s) .hash)) x y := by
  subst hx hy
  obtain ⟨-, -, hset, ho⟩ := h
  exact ⟨⟨rfl, rfl, hset, ho⟩, rfl, toNat_ofNat_of_lt_P (H_lt _ _), rfl, [], rfl⟩

/-- A run that starts later uses up the cycles between as well. -/
theorem HashDone.of_loaded {s u t : State} {x y : Reg256} (h : HashDone u t x y) (hres : u.res = s.res)
    (hp : ∃ used, s.port = used ++ u.port) : HashDone s t x y := by
  obtain ⟨used, hused⟩ := hp
  obtain ⟨used', hused'⟩ := h.port
  exact ⟨h.idle, h.err, h.s0, h.res.trans hres, used ++ used', by rw [hused, hused', List.append_assoc]⟩

theorem loadRun_hash {n : Nat} {s : State} (x y : Reg256) (h : HostIdle s) (hn : latHash s.params ≤ n) :
    ∃ t, loadRun n .hash x y s = .ok t ∧ HashDone s t x y := by
  obtain ⟨s1, hld0, h1⟩ := ld256_idle (.inl rfl) x h
  have hidle1 := h1.hostIdle (h.setInput .in0 x)
  obtain ⟨s2, hld1, h2⟩ := ld256_idle (.inr rfl) y hidle1
  have hidle2 := h2.hostIdle (hidle1.setInput .in1 y)
  have hloaded : UpToReads ((s.setInput .in0 x).setInput .in1 y) s2 := (h1.setInput .in1 y).trans h2
  have hregs : s2.in0 = x ∧ s2.in1 = y ∧ s2.res = s.res ∧ s2.params = s.params ∧ ∃ used, s.port = used ++ s2.port := by
    obtain ⟨a, d, hp⟩ := hloaded
    exact ⟨rfl, rfl, rfl, rfl, _, hp⟩
  obtain ⟨hx, hy, hres, hparams, hport⟩ := hregs
  obtain ⟨s3, hcmd, h3⟩ := cmdWait_hash hidle2 (hparams ▸ hn)
  refine ⟨s3, by simp only [loadRun, hld0, hld1, hcmd], ?_⟩
  exact ((hashDone_outcome hidle2 _ _ hx hy).upToReads h3).of_loaded hres hport

/-- With ERR = OK the driver takes the digest from S0. -/
theorem readDigest_ok {s : State} (h : HostIdle s) (he : s.err = .ok) :
    ∃ t, readDigest s = .ok (s.s0.toNat, t) ∧ UpToReads s t := by
  obtain ⟨k, r, u, hread, hu⟩ := hostRead_status h.undisturbed
  rw [h.iterate_tick] at hread hu
  obtain ⟨t, hrd, ht⟩ := rd256_idle .s0 (hu.hostIdle h)
  refine ⟨t, ?_, hu.trans ht⟩
  have hcode : s.err.code = 0 := (errCode_eq_zero_iff _).2 he
  simp only [readDigest, hread, statusWordWith_err, hcode, if_true, hrd, hu.bank_eq]
  exact congrArg (fun v => Except.ok (v, t)) (toNat_zeroExtend s.s0)

/-- With another ERR it returns no digest (R146). -/
theorem readDigest_disturbed {s : State} (h : Undisturbed s) (he : s.err ≠ .ok) :
    readDigest s = .error .disturbed := by
  obtain ⟨k, r, u, hread, -⟩ := hostRead_status h
  have hcode : s.err.code ≠ 0 := mt (errCode_eq_zero_iff _).1 he
  simp only [readDigest, hread, statusWordWith_err, iterate_tick_keeps tick_err, if_neg hcode]

theorem hashTraffic_idle {n : Nat} {s : State} (x y : Reg256) (h : HostIdle s) (hn : latHash s.params ≤ n) :
    ∃ t, hashTraffic n x y s = .ok (H x.toNat y.toNat, t) ∧ HashDone s t x y := by
  obtain ⟨m, rfl⟩ : ∃ m, n = m + 1 := Nat.exists_eq_add_of_le' ((Nat.le_add_left 1 _).trans hn)
  obtain ⟨s1, hwait, h1⟩ := wait_idle (n := m) h
  have hidle1 := h1.hostIdle h
  have hregs : s1.res = s.res ∧ s1.params = s.params ∧ ∃ used, s.port = used ++ s1.port := by
    obtain ⟨a, d, hp⟩ := h1
    exact ⟨rfl, rfl, _, hp⟩
  obtain ⟨hres, hparams, hport⟩ := hregs
  obtain ⟨s2, hload, h2⟩ := loadRun_hash x y hidle1 (hparams ▸ hn)
  obtain ⟨t, hdigest, ht⟩ := readDigest_ok h2.idle h2.err
  rw [h2.s0] at hdigest
  exact ⟨t, by simp only [hashTraffic, hwait, hload, hdigest], (h2.upToReads ht).of_loaded hres hport⟩

theorem hashStr_of_numerals {n : Nat} {a b : List Char} {v0 v1 : Nat} {s : State} (ha : parseNumeral a = .ok v0)
    (hb : parseNumeral b = .ok v1) :
    hashStr n [a, b] s =
      (hashTraffic n (narrow v0) (narrow v1) s).map fun x => (decimal x.1, x.2) := by
  rw [hashStr, if_neg fun h => h rfl]
  simp only [ha, hb]
  cases hashTraffic n (narrow v0) (narrow v1) s <;> rfl

theorem hashStr_of_malformed {n : Nat} {a b : List Char} {s : State}
    (h : (∀ v, parseNumeral a ≠ .ok v) ∨ ∀ v, parseNumeral b ≠ .ok v) :
    hashStr n [a, b] s = .error .invalidNumeral := by
  rw [hashStr, if_neg fun h => h rfl]
  cases ha : parseNumeral a with
  | error e => rfl
  | ok v0 =>
    cases hb : parseNumeral b with
    | error e => rfl
    | ok v1 => exact absurd h (by simp [ha, hb])

/-- Settles O55: one poll of the idle block, the loading, HASH and its wait, and the digest read from S0; the digest of
the narrowed values is that of the values. -/
theorem driverReturnsTheDigest : Obligations.DriverReturnsTheDigest := by
  refine ⟨fun s n a b v0 v1 hb hf hset ho hn ha hb' => ?_, fun _ _ _ h => if_pos h, fun _ _ _ _ => hashStr_of_malformed⟩
  obtain ⟨t, htraffic, ht⟩ := hashTraffic_idle (narrow v0) (narrow v1) ⟨hb, hf, hset, ho⟩ hn
  have hs0 := ht.s0
  rw [H_narrow] at htraffic hs0
  exact ⟨t, by rw [hashStr_of_numerals ha hb', htraffic]; rfl, hs0, ht.res, ht.port⟩

/-- Settles O56: the driver reads STATUS after its wait and finds ERR not OK. -/
theorem disturbedDriverReturnsNoDigest : Obligations.DisturbedDriverReturnsNoDigest := by
  intro s s1 s2 n a b v0 v1 ha hb hwait hload herr hset ho
  have hdigest := readDigest_disturbed ⟨hset, ho⟩ herr
  rw [hashStr_of_numerals ha hb]
  simp only [hashTraffic, hwait, hload, hdigest]
  rfl

end Sys2Proof.Machine
end
